-- ==== Sys2Proof/Word.lean ====
section
/-! DEFINITION. The word types of the GCM core: bytes, 64-bit counts and 128-bit blocks
(spec/00_scope.md rules R9, R15, R16). Byte order and field helpers are in Machine/Bytes.lean. -/

namespace Sys2Proof

/-- One byte of a frame, a buffer or a block. -/
abbrev Byte := BitVec 8

/-- An argument word or a length counter (R15, R72). -/
abbrev Word64 := BitVec 64

/-- A command word or a status word (R34, R71). -/
abbrev Word32 := BitVec 32

/-- A block, held as the number `int(B)` of R16: byte `B[0]` is the most significant byte. -/
abbrev Block := BitVec 128

end Sys2Proof
end

