-- ==== Sys2Proof/Machine/Bytes.lean ====
section
/-! DEFINITION. Byte strings, big-endian encodings and blocks (00_scope.md R16, 20_memory.md R52
and R53). -/

namespace Sys2Proof

/-- `zeros(n)` of R16. -/
def zeros (n : Nat) : List Byte := List.replicate n 0

/-- The `n`-byte big-endian encoding of `v` taken modulo `2^(8n)` (R16). -/
def beBytes : Nat → Nat → List Byte
  | 0, _ => []
  | n + 1, v => BitVec.ofNat 8 (v >>> (8 * n)) :: beBytes n v

/-- `be32(v)` of R16. -/
def be32 (v : Nat) : List Byte := beBytes 4 v

/-- `be64(v)` of R16. -/
def be64 (v : Nat) : List Byte := beBytes 8 v

/-- The unsigned number whose big-endian representation is the byte string (R16's `int`). -/
def beNat (bs : List Byte) : Nat := bs.foldl (fun acc b => 256 * acc + b.toNat) 0

/-- The 16 bytes `B[0] .. B[15]` of a block (R16). -/
def blockBytes (b : Block) : List Byte := beBytes 16 b.toNat

/-- The block `S ++ zeros(16 - len(S))` of a string `S` of at most 16 bytes (R16, R111). -/
def blockOf (bs : List Byte) : Block := BitVec.ofNat 128 (beNat (bs ++ zeros (16 - bs.length)))

/-- Bytewise exclusive OR; the longer string's tail is discarded (R16, R111). -/
def xorBytes (a b : List Byte) : List Byte := List.zipWith (fun x y => x ^^^ y) a b

/-- `pad16(S)` of R16. -/
def pad16 (bs : List Byte) : List Byte := bs ++ zeros ((16 - bs.length % 16) % 16)

/-- The first `n` 16-byte pieces of a string: piece `j` is `S[16j .. 16j+16)` (R105, R150). -/
def chunks : Nat → List Byte → List (List Byte)
  | 0, _ => []
  | n + 1, bs => bs.take 16 :: chunks n (bs.drop 16)

end Sys2Proof
end

