-- ==== Sys2Proof/Syntax.lean ====
section
/-! DEFINITION. The eight commands of the GCM core, one constructor per row of
spec/opcode_table.json (30_encoding.md R72, R73). The length arguments IVLEN, AADLEN and LEN are
the lengths of the byte strings a command carries (R72, R77). -/

namespace Sys2Proof

/-- A legal command. -/
inductive Instr where
  /-- NOP, OP 0x00 (R135). -/
  | nop
  /-- INIT_ENC, OP 0x01: TL, the IV bytes and the AAD bytes (R132). -/
  | initEnc (tl : BitVec 5) (iv aad : List Byte)
  /-- INIT_DEC, OP 0x02: TL, the IV bytes and the AAD bytes (R133). -/
  | initDec (tl : BitVec 5) (iv aad : List Byte)
  /-- ENC_UPDATE, OP 0x03: a plaintext chunk (R150). -/
  | encUpdate (chunk : List Byte)
  /-- DEC_UPDATE, OP 0x04: a chunk of ciphertext and tag bytes (R170). -/
  | decUpdate (chunk : List Byte)
  /-- ENC_FINAL, OP 0x05: OUTCAP (R152). -/
  | encFinal (outcap : Word64)
  /-- DEC_FINAL, OP 0x06: OUTCAP (R172). -/
  | decFinal (outcap : Word64)
  /-- ZEROIZE, OP 0x07 (R136). -/
  | zeroize
deriving DecidableEq, Repr

end Sys2Proof
end

