-- ==== Sys2Proof/WellFormed.lean ====
section
/-! DEFINITION. Which commands have a frame: every byte string's length fits its 64-bit argument
word (R72, R77). TL is any five-bit value (R76), and OUTCAP any 64-bit value. -/

namespace Sys2Proof

/-- The length of `bs` fits one argument word. -/
def fitsArg (bs : List Byte) : Bool := decide (bs.length < 2 ^ 64)

/-- The command can be put into a frame. -/
def Instr.wf : Instr → Bool
  | .nop => true
  | .initEnc _ iv aad => fitsArg iv && fitsArg aad
  | .initDec _ iv aad => fitsArg iv && fitsArg aad
  | .encUpdate chunk => fitsArg chunk
  | .decUpdate chunk => fitsArg chunk
  | .encFinal _ => true
  | .decFinal _ => true
  | .zeroize => true

end Sys2Proof
end

