-- ==== Sys2Proof/Decode.lean ====
section
/-! DEFINITION. Command frames (30_encoding.md R70 to R78): reading one frame from the bytes
received, total on any bytes and rejecting illegal words by name, and then the encoder. -/

namespace Sys2Proof

/-- Why a command word is illegal (R75). -/
inductive IllegalWord where
  /-- R75 (a): OP is in 0x08..0xFF. -/
  | reservedOpcode
  /-- R75 (b): RSV is not zero. -/
  | reservedBits
  /-- R75 (c): TL is not zero and OP is not 0x01 or 0x02. -/
  | tagLengthOutsideInit
deriving DecidableEq, Repr

/-- What the bytes received so far begin with. -/
inductive Frame where
  /-- No whole frame yet. -/
  | incomplete
  /-- A whole frame whose command word is illegal, and the bytes after it. -/
  | illegal (why : IllegalWord) (rest : List Byte)
  /-- A whole frame of a legal command, and the bytes after it. -/
  | command (i : Instr) (rest : List Byte)
deriving DecidableEq, Repr

/-! ## Fields of the command word (R71) -/

/-- OP = CW[7:0]. -/
def opField (cw : Word32) : BitVec 8 := cw.extractLsb' 0 8

/-- TL = CW[12:8]. -/
def tlField (cw : Word32) : BitVec 5 := cw.extractLsb' 8 5

/-- RSV = CW[31:13]. -/
def rsvField (cw : Word32) : BitVec 19 := cw.extractLsb' 13 19

/-- NARGS(OP) of R72. -/
def nargs (op : BitVec 8) : Nat :=
  match op.toNat with
  | 1 => 2
  | 2 => 2
  | 3 => 1
  | 4 => 1
  | 5 => 1
  | 6 => 1
  | _ => 0

/-- PLEN of R72 from OP and the two argument words (a word the frame does not have is not used). -/
def payloadLen (op : BitVec 8) (a0 a1 : Nat) : Nat :=
  match op.toNat with
  | 1 => a0 + a1
  | 2 => a0 + a1
  | 3 => a0
  | 4 => a0
  | _ => 0

/-- The number of bytes before the payload (R70). -/
def headerLen (op : BitVec 8) : Nat := 4 + 8 * nargs op

/-- The command word at the head of the bytes (R53, R70). -/
def commandWord (bs : List Byte) : Word32 := BitVec.ofNat 32 (beNat (bs.take 4))

/-- Argument word `k` of the frame at the head of the bytes (R53, R70). -/
def argWord (bs : List Byte) (k : Nat) : Nat := beNat ((bs.drop (4 + 8 * k)).take 8)

/-- Legality of a command word and the command it starts (R73, R75, R77). -/
def decodeCommand (cw : Word32) (a0 : Nat) (payload : List Byte) : Except IllegalWord Instr :=
  let noTag (i : Instr) : Except IllegalWord Instr :=
    if tlField cw = 0 then .ok i else .error .tagLengthOutsideInit
  if rsvField cw ≠ 0 then .error .reservedBits
  else
    match (opField cw).toNat with
    | 0 => noTag .nop
    | 1 => .ok (.initEnc (tlField cw) (payload.take a0) (payload.drop a0))
    | 2 => .ok (.initDec (tlField cw) (payload.take a0) (payload.drop a0))
    | 3 => noTag (.encUpdate payload)
    | 4 => noTag (.decUpdate payload)
    | 5 => noTag (.encFinal (BitVec.ofNat 64 a0))
    | 6 => noTag (.decFinal (BitVec.ofNat 64 a0))
    | 7 => noTag .zeroize
    | _ => .error .reservedOpcode

/-- Reads the frame at the head of the bytes (R70, R74): the length comes from OP and the argument
words alone, and only then is legality decided. -/
def parseFrame (bs : List Byte) : Frame :=
  let cw := commandWord bs
  let hdr := headerLen (opField cw)
  let len := hdr + payloadLen (opField cw) (argWord bs 0) (argWord bs 1)
  if bs.length < 4 then .incomplete
  else if bs.length < hdr then .incomplete
  else if bs.length < len then .incomplete
  else
    match decodeCommand cw (argWord bs 0) ((bs.take len).drop hdr) with
    | .ok i => .command i (bs.drop len)
    | .error why => .illegal why (bs.drop len)

/-! ## The encoder -/

/-- A legal command word from OP and TL, RSV = 0 (R71). -/
def makeWord (op : BitVec 8) (tl : BitVec 5) : Word32 := (0 : BitVec 19) ++ tl ++ op

/-- The frame of OP, TL, argument words and payload (R53, R70). -/
def makeFrame (op : BitVec 8) (tl : BitVec 5) (args : List Nat) (payload : List Byte) :
    List Byte :=
  be32 (makeWord op tl).toNat ++ (args.flatMap be64 ++ payload)

/-- The frame of a command (R72, R73). -/
def encode : Instr → List Byte
  | .nop => makeFrame 0x00 0 [] []
  | .initEnc tl iv aad => makeFrame 0x01 tl [iv.length, aad.length] (iv ++ aad)
  | .initDec tl iv aad => makeFrame 0x02 tl [iv.length, aad.length] (iv ++ aad)
  | .encUpdate chunk => makeFrame 0x03 0 [chunk.length] chunk
  | .decUpdate chunk => makeFrame 0x04 0 [chunk.length] chunk
  | .encFinal outcap => makeFrame 0x05 0 [outcap.toNat] []
  | .decFinal outcap => makeFrame 0x06 0 [outcap.toNat] []
  | .zeroize => makeFrame 0x07 0 [] []

/-! ## Words numbered as spec/opcode_table.json numbers them -/

/-- The frame whose bits are `w`: the command word is bits 31..0, argument word `k` is bits
`32 + 64k + 63 .. 32 + 64k`, and payload byte `j` is the 8 bits after them; bits at and above
`nbits` are zero. -/
def tableFrame (nbits w : Nat) : List Byte :=
  let v := w % 2 ^ nbits
  let op : BitVec 8 := BitVec.ofNat 8 v
  let a (k : Nat) : Nat := (v >>> (32 + 64 * k)) % 2 ^ 64
  let base := 32 + 64 * nargs op
  be32 v ++ ((List.range (nargs op)).flatMap (fun k => be64 (a k)) ++
    (List.range (payloadLen op (a 0) (a 1))).map (fun j => BitVec.ofNat 8 (v >>> (base + 8 * j))))

/-- What the decoder reads from the frame whose bits are `w`. -/
def decodeTableWord (nbits w : Nat) : Option Instr :=
  match parseFrame (tableFrame nbits w) with
  | .command i _ => some i
  | .illegal _ _ => none
  | .incomplete => none

end Sys2Proof
end

