-- ==== Sys2Proof/Config.lean ====
section
/-! DEFINITION. What the spec leaves open as parameters of the model: the block cipher behind the
port (R10, R24) and the capacity of the decrypt buffer (R11). `LINK` (R12) is omitted, as R12 says
a transaction-level model does. -/

namespace Sys2Proof

/-- The block-cipher function of R10, one total function of a block per key that the host may
select at the port (R24, R234). The argument `Nat` names the key; nothing is known of the value. -/
opaque Config.blockCipher : Nat → Block → Block

/-- The open size from which `PT_BUF_BYTES` is made (R11). -/
opaque Config.ptBufRaw : Word64

/-- `PT_BUF_BYTES` (R11): any number from `TLEN_MAX` = 16 up to what the 64-bit BUF_LEN counts
(DEDUCED, notes/assumptions/2.md: R20 gives BUF_LEN 64 bits and R33 lets it count every byte). -/
def Config.ptBufBytes : Nat := max 16 Config.ptBufRaw.toNat

end Sys2Proof
end

