-- ==== Sys2Proof/Machine/State.lean ====
section
/-! DEFINITION. The state of one GCM core instance: the context registers of 10_state.md R20, and
the channels of 20_memory.md R50 with the host's moves. -/

namespace Sys2Proof.Machine

/-- The values PHASE holds (R21); 5, 6 and 7 are never held. -/
inductive Phase where
  | idle
  | encrypting
  | decrypting
  | done
  | failed
deriving DecidableEq, Repr

/-- The error codes of a command (60_exceptions.md R200). -/
inductive Err where
  | ok
  | invalidParam
  | outOfMemory
  /-- Reserved, never produced (R203). -/
  | unsupportedImpl
  | authFailed
  | bufferTooSmall
  | sequence
  | illegalCmd
deriving DecidableEq, Repr

/-- The GCM context: exactly the registers of R20. -/
structure Context where
  /-- PHASE (R21). -/
  phase : Phase
  /-- TLEN, tag length in bytes (R23). -/
  tlen : BitVec 5
  /-- H, the GHASH subkey (R25). -/
  h : Block
  /-- J0, the initial counter block (R26). -/
  j0 : Block
  /-- CB, the current counter block (R27). -/
  cb : Block
  /-- Y, the GHASH accumulator (R28). -/
  y : Block
  /-- REM, the partial plaintext block (R29). -/
  rem : Block
  /-- REM_LEN, the number of valid bytes of REM (R29). -/
  remLen : BitVec 4
  /-- AAD_LEN in bytes (R30). -/
  aadLen : Word64
  /-- PROC_LEN, ciphertext bytes folded into Y (R31). -/
  procLen : Word64
  /-- BUF (R33) from index 0; a byte of BUF at or after the list's end is zero, so that
  `zeros(PT_BUF_BYTES)` is the empty list. -/
  buf : List Byte
  /-- BUF_LEN, the number of valid bytes of BUF (R33). -/
  bufLen : Word64
deriving DecidableEq, Repr

/-- The reset value of every register (R40, R230). -/
def Context.reset : Context where
  phase := .idle
  tlen := 0
  h := 0
  j0 := 0
  cb := 0
  y := 0
  rem := 0
  remLen := 0
  aadLen := 0
  procLen := 0
  buf := []
  bufLen := 0

/-- A response frame (30_encoding.md R85); OUTLEN is the length of `out`. -/
structure Response where
  /-- STATUS (R34). -/
  status : Word32
  /-- The output bytes, in emission order. -/
  out : List Byte
deriving DecidableEq, Repr

/-- What the host can do to the core from outside (R18, R50, R230 to R234). -/
inductive HostMove where
  /-- Put bytes on the command channel (R70). -/
  | bytes (bs : List Byte)
  /-- Say that the bytes that follow start at a frame boundary (R232). -/
  | boundary
  /-- Hardware reset (R230). -/
  | reset
  /-- Make the block-cipher port evaluate `E` under the key named (R24, R234). -/
  | key (k : Nat)
deriving DecidableEq, Repr

/-- One GCM core instance with its three data paths (R20, R50). -/
structure State where
  /-- The context registers (R20). -/
  ctx : Context
  /-- Bytes received on the command channel and not yet consumed by a command (R70, R74). -/
  rx : List Byte
  /-- A reset abandoned a frame and the host has not resumed at a frame boundary (R232). -/
  resync : Bool
  /-- The response channel: every response produced, oldest first (R85). -/
  respOut : List Response
  /-- Which key the external block-cipher port uses (R24); no register of the core. -/
  portKey : Nat
  /-- What the host does next, in its order (R57). -/
  hostIn : List HostMove
deriving DecidableEq, Repr

/-- Faults. There is none: the core "has no fatal or abort condition" (R204), and an error is a
code in a response, not a stop (R214). Safe: nothing raises a fault. -/
inductive Fault where
deriving DecidableEq, Repr

/-- What the model gives no meaning. -/
inductive Refusal where
  /-- Raised by an arm of `exec` whose instruction has no meaning yet. Safe: the run stops. -/
  | notModelled (mnemonic : String)
  /-- Raised by `takeMove` when the host changes the key between INIT and the end of FINAL, which
  R244 and U9 of 93_implementation_defined.md put outside the model. Safe: the run stops. -/
  | keyChangedInMessage
deriving DecidableEq, Repr

/-- The machine right after reset (R40, R230, R231): every register at its reset value, nothing on
the channels, no host move pending. `portKey` 0 is a name, not a register (notes/assumptions/1.md). -/
def State.reset : State where
  ctx := Context.reset
  rx := []
  resync := false
  respOut := []
  portKey := 0
  hostIn := []

end Sys2Proof.Machine
end

