-- ==== Sys2Proof/Machine/Flags.lean ====
section
/-! DEFINITION. The status word and the response frame: error and phase codes (R21, R200), STATUS
(R34) and the response's bytes (R85). The core has no other flags (R37). -/

namespace Sys2Proof.Machine

/-- The PHASE field's value (R21). -/
def Phase.code : Phase → BitVec 3
  | .idle => 0
  | .encrypting => 1
  | .decrypting => 2
  | .done => 3
  | .failed => 4

/-- The ERR field's value (R200). -/
def Err.code : Err → BitVec 4
  | .ok => 0
  | .invalidParam => 1
  | .outOfMemory => 2
  | .unsupportedImpl => 3
  | .authFailed => 4
  | .bufferTooSmall => 5
  | .sequence => 6
  | .illegalCmd => 7

/-- STATUS for an error code and the registers after the command (R34). -/
def statusWord (e : Err) (c : Context) : Word32 :=
  (0 : BitVec 19) ++ c.tlen ++ (0 : BitVec 1) ++ c.phase.code ++ e.code

/-- STATUS, OUTLEN and the output bytes as they are sent (R53, R85). -/
def Response.bytes (r : Response) : List Byte :=
  be32 r.status.toNat ++ (be64 r.out.length ++ r.out)

end Sys2Proof.Machine
end

