-- ==== Sys2Proof/Machine/Ghash.lean ====
section
/-! DEFINITION. The GF(2^128) multiplier, the GHASH fold and the counter-block generator
(40_ghash_counter.md R100 to R112). -/

namespace Sys2Proof.Machine

/-! ## The multiplier -/

/-- The reduction constant `R = 0xE1 || 0^120` (R100). -/
def gfR : Block := 0xE1000000000000000000000000000000

/-- One step of V: the product with `x` in the field (R100). -/
def gfMulX (v : Block) : Block := if v.getLsbD 0 then (v >>> 1) ^^^ gfR else v >>> 1

/-- The loop of R100 with `n` steps to go: step `i = 128 - n` reads `int(X)[127 - i]`, which is
`int(X)[n - 1]`. -/
def gfLoop (x : Block) : Nat → Block → Block → Block
  | 0, z, _ => z
  | n + 1, z, v => gfLoop x n (if x.getLsbD n then z ^^^ v else z) (gfMulX v)

/-- `X • Y` (R100). Irreducible, so that no unification runs its 128 steps. -/
@[irreducible] def gfMul (x y : Block) : Block := gfLoop x 128 0 y

/-- The carry-less product of two 128-bit numbers (R101's `clmul`). -/
def clmul (a b : Block) : BitVec 256 :=
  (List.range 128).foldl
    (fun p i => if a.getLsbD i then p ^^^ (b.setWidth 256 <<< i) else p) 0

/-- `x^128 + x^7 + x^2 + x + 1`, coefficient of `x^i` at bit `i` (R101). -/
def gfPoly : BitVec 256 := 0x100000000000000000000000000000087

/-- The XOR reduction of R101, from coefficient `127 + n` down to coefficient 128. -/
def clReduce : Nat → BitVec 256 → BitVec 256
  | 0, p => p
  | n + 1, p => clReduce n (if p.getLsbD (128 + n) then p ^^^ (gfPoly <<< n) else p)

/-- The carry-less form of the product (R101). -/
@[irreducible] def gfMulCarryless (x y : Block) : Block :=
  ((clReduce 127 (clmul x.reverse y.reverse)).setWidth 128).reverse

/-! ## The accumulator -/

/-- `fold(A, X) = (A XOR X) • H` (R104, R114). -/
def fold (h a x : Block) : Block := gfMul (a ^^^ x) h

/-- `ghash(A, S)`: the blocks of `pad16(S)` folded in order (R105). -/
def ghash (h a : Block) (bs : List Byte) : Block :=
  (chunks ((pad16 bs).length / 16) (pad16 bs)).foldl (fun acc x => fold h acc (blockOf x)) a

/-- `be64(8 * a mod 2^64) ++ be64(8 * c mod 2^64)` (R109, R110). -/
def lengthBlock (a c : Word64) : Block := (8 * a) ++ (8 * c)

/-! ## The counter-block generator -/

/-- `inc32(C)` (R106, R107): the low 32 bits wrap, the upper 96 stay. -/
def inc32 (c : Block) : Block := (c.extractLsb' 32 96) ++ (c.extractLsb' 0 32 + 1)

/-- J0 from the IV (R108 for 12 bytes, R109 for every other length). -/
def deriveJ0 (h : Block) (iv : List Byte) : Block :=
  if iv.length = 12 then blockOf (iv ++ be32 1)
  else fold h (ghash h 0 iv) (lengthBlock 0 (BitVec.ofNat 64 iv.length))

end Sys2Proof.Machine
end

