-- ==== Sys2Proof/Machine/Operands.lean ====
section
/-! DEFINITION. The operands of commands and the byte buffers they reach: the legal tag lengths
(R14), the bytes of REM (R29) and the bytes of BUF (R33). -/

namespace Sys2Proof.Machine

/-- TAGSET (R14). -/
def tagSet : List Nat := [4, 8, 12, 13, 14, 15, 16]

/-- TL is in TAGSET (R130). -/
def tagLegal (tl : BitVec 5) : Bool := tagSet.contains tl.toNat

/-- `REM[0..REM_LEN)` (R29). -/
def Context.remBytes (c : Context) : List Byte := (blockBytes c.rem).take c.remLen.toNat

/-- Writes the remainder `T ++ zeros(16 - len(T))` and its length (R150); `T` has at most 15 bytes. -/
def Context.setRem (c : Context) (t : List Byte) : Context :=
  { c with rem := blockOf t, remLen := BitVec.ofNat 4 t.length }

/-- `BUF[o .. o+m)`; a byte the list does not hold reads zero (R33). -/
def bufSlice (buf : List Byte) (o m : Nat) : List Byte :=
  (buf.drop o).take m ++ zeros (m - (buf.length - o))

/-- `BUF[o .. o+len(C)) <- C` (R170, R173). -/
def bufWrite (buf : List Byte) (o : Nat) (c : List Byte) : List Byte :=
  bufSlice buf 0 o ++ (c ++ buf.drop (o + c.length))

/-- `BUF <- zeros(PT_BUF_BYTES) ; BUF_LEN <- 0` (R172, R176). -/
def Context.clearBuf (c : Context) : Context := { c with buf := [], bufLen := 0 }

end Sys2Proof.Machine
end

