-- ==== Sys2Proof/Machine/Ops.lean ====
section
/-! DEFINITION. The shared operations of the commands: responding (R17, R85, R200), the reset of
the registers (R40), and the block operations of the two pipelines (R131, R151, R173, R110, R112).
The block cipher `E` is an argument (R10); a meaning supplies the port's (R24). -/

namespace Sys2Proof.Machine

/-! ## Responding: the core's only reaction to an error (R201, R214) -/

/-- A command's end: the registers after it, its error code and the bytes it emitted. -/
structure Reply where
  ctx : Context
  err : Err
  out : List Byte
deriving DecidableEq, Repr

/-- `respond(OK)` with the emitted bytes (R17). -/
def reply (c : Context) (out : List Byte) : Reply := ⟨c, .ok, out⟩

/-- `respond(err)` with nothing emitted (R86, R202). -/
def replyErr (e : Err) (c : Context) : Reply := ⟨c, e, []⟩

/-- Writes the registers and sends the one response frame of the command (R56, R85). -/
def State.finish (s : State) (r : Reply) : State :=
  { s with ctx := r.ctx, respOut := s.respOut ++ [⟨statusWord r.err r.ctx, r.out⟩] }

/-- `E` as the port evaluates it now (R10, R24). -/
def State.cipher (s : State) : Block → Block := Config.blockCipher s.portKey

/-- `fail_oom()` (R171): every register reset, PHASE = FAILED. -/
def failOom : Reply := replyErr .outOfMemory { Context.reset with phase := .failed }

/-! ## Initialization -/

/-- The body of INIT (R131) followed by the write of PHASE (R132, R133). -/
def initContext (E : Block → Block) (dir : Phase) (tl : BitVec 5) (iv aad : List Byte) : Context :=
  let h := E 0
  let j0 := deriveJ0 h iv
  { phase := dir
    tlen := tl
    h := h
    j0 := j0
    cb := j0
    y := ghash h 0 aad
    rem := 0
    remLen := 0
    aadLen := BitVec.ofNat 64 aad.length
    procLen := 0
    buf := []
    bufLen := 0 }

/-- Validation (R130, R211) and body of INIT_ENC and INIT_DEC. -/
def initReply (E : Block → Block) (dir : Phase) (tl : BitVec 5) (iv aad : List Byte)
    (c : Context) : Reply :=
  if c.phase ≠ .idle then replyErr .sequence c
  else if tagLegal tl = false then replyErr .invalidParam c
  else if iv.length = 0 then replyErr .invalidParam c
  else reply (initContext E dir tl iv aad) []

/-! ## The encrypt pipeline -/

/-- The registers after one block of ciphertext `x` (zero-padded), `m` bytes of it ciphertext, has
been folded after a counter step (R111, R151, R152). -/
def Context.stepBlock (c : Context) (x : Block) (m : Nat) : Context :=
  { c with
    cb := inc32 c.cb
    y := fold c.h c.y x
    procLen := c.procLen + BitVec.ofNat 64 m }

/-- The keystream block of the next data block: `E(inc32(CB))` (R111). -/
def Context.keystream (E : Block → Block) (c : Context) : Block := E (inc32 c.cb)

/-- `encrypt_block(P16)` (R151) on each block in turn: the registers after, and the bytes emitted. -/
def encryptBlocks (E : Block → Block) : Context → List Block → Context × List Byte
  | c, [] => (c, [])
  | c, p :: ps =>
    let x := p ^^^ c.keystream E
    let r := encryptBlocks E (c.stepBlock x 16) ps
    (r.1, blockBytes x ++ r.2)

/-- The final partial block of ENC_FINAL, `REM_LEN = r > 0` (R152, R153). -/
def encryptPartial (E : Block → Block) (c : Context) : Context × List Byte :=
  let x := xorBytes c.remBytes (blockBytes (c.keystream E))
  ({ c.stepBlock (blockOf x) c.remLen.toNat with rem := 0, remLen := 0 }, x)

/-! ## The tag -/

/-- The fold of the length block (R110). -/
def Context.foldLengths (c : Context) : Context :=
  { c with y := fold c.h c.y (lengthBlock c.aadLen c.procLen) }

/-- `T[0..TLEN)` with `T = E(J0) XOR Y` (R112). -/
def Context.tag (E : Block → Block) (c : Context) : List Byte :=
  (blockBytes (E c.j0 ^^^ c.y)).take c.tlen.toNat

/-- `constant_time_equal(A, B)` for strings of one length: the OR of all byte differences is zero
(R174). -/
def constantTimeEqual (a b : List Byte) : Bool :=
  (xorBytes a b).foldl (fun acc d => acc ||| d) 0 == 0

/-! ## The decrypt pipeline -/

/-- `decrypt_block(o, m)` over `BUF[o..o+m)` (R173): the fold uses the ciphertext as it stood
before the write in place. -/
def decryptBlock (E : Block → Block) (c : Context) (o m : Nat) : Context :=
  let x := bufSlice c.buf o m
  { c.stepBlock (blockOf x) m with
    buf := bufWrite c.buf o (xorBytes x (blockBytes (c.keystream E))) }

/-- The walk of R172 over `BUF[o..n)`, `k` blocks to go. -/
def decryptWalk (E : Block → Block) (n : Nat) : Nat → Nat → Context → Context
  | 0, _, c => c
  | k + 1, o, c => decryptWalk E n k (o + 16) (decryptBlock E c o (min 16 (n - o)))

end Sys2Proof.Machine
end

