-- ==== Sys2Proof/Machine/Channel.lean ====
section
/-! DEFINITION. What the core does on its channels outside a command: an illegal frame (R75),
hardware reset (R230 to R232) and the host's other moves (R231, R234, R244). -/

namespace Sys2Proof.Machine

/-- The response to an illegal command word: no register changes, nothing is emitted (R75). -/
def illegalCommand (s : State) : State := s.finish (replyErr .illegalCmd s.ctx)

/-- The host's next move is a hardware reset. -/
def State.resetPending (s : State) : Bool :=
  match s.hostIn with
  | .reset :: _ => true
  | .bytes _ :: _ => false
  | .boundary :: _ => false
  | .key _ :: _ => false
  | [] => false

/-- After at most `k` whole frames the bytes end inside a frame. -/
def endsInsideFrame : Nat → List Byte → Bool
  | 0, _ => false
  | k + 1, bs =>
    match parseFrame bs with
    | .incomplete => !bs.isEmpty
    | .illegal _ rest => endsInsideFrame k rest
    | .command _ rest => endsInsideFrame k rest

/-- Hardware reset (R230, R212): every register takes its reset value and every byte received is
abandoned without a response. When that cuts a frame short, the rest of the frame is not to be
parsed until the host resumes at a frame boundary (R232). -/
def hardwareReset (s : State) : State :=
  { s with
    ctx := Context.reset
    rx := []
    resync := s.resync || endsInsideFrame (s.rx.length + 1) s.rx
    hostIn := s.hostIn.tail }

/-- A message is in progress: INIT has run and FINAL has not ended it (R244). -/
def Context.inMessage (c : Context) : Bool :=
  match c.phase with
  | .encrypting => true
  | .decrypting => true
  | .idle => false
  | .done => false
  | .failed => false

/-- The core has no whole frame to serve and takes the host's next move; with none it waits, its
registers kept (R224, R231). -/
def takeMove (s : State) : Host.Outcome State Fault Refusal :=
  match s.hostIn with
  | [] => .next s
  | .bytes bs :: t => .next { s with rx := if s.resync then s.rx else s.rx ++ bs, hostIn := t }
  | .boundary :: t => .next { s with resync := false, hostIn := t }
  | .reset :: _ => .next (hardwareReset s)
  | .key k :: t =>
    if s.ctx.inMessage && k != s.portKey then .refused .keyChangedInMessage
    else .next { s with portKey := k, hostIn := t }

/-- Puts a frame where the core reads next; a pending reset is put after a wait for it. -/
def State.placeFrame (s : State) (frame : List Byte) : State :=
  { s with
    rx := frame ++ s.rx
    hostIn := if s.resetPending then .bytes [] :: s.hostIn else s.hostIn }

end Sys2Proof.Machine
end

