-- ==== Sys2Proof/Machine/Decrypt.lean ====
section
/-! DEFINITION. The streaming decrypt pipeline (43_decrypt.md R170 to R178). -/

namespace Sys2Proof.Machine

/-- DEC_UPDATE on the registers, `cap` = PT_BUF_BYTES (R170, R171). -/
def decUpdateReply (cap : Nat) (chunk : List Byte) (c : Context) : Reply :=
  if c.phase ≠ .decrypting then replyErr .sequence c
  else if cap < c.bufLen.toNat + chunk.length then failOom
  else
    reply
      { c with
        buf := bufWrite c.buf c.bufLen.toNat chunk
        bufLen := c.bufLen + BitVec.ofNat 64 chunk.length } []

/-- DEC_FINAL on the registers (R172): authenticate, decrypt, verify, release, in that order. -/
def decFinalReply (E : Block → Block) (outcap : Word64) (c : Context) : Reply :=
  if c.phase ≠ .decrypting then replyErr .sequence c
  else if c.bufLen.toNat < c.tlen.toNat then
    replyErr .authFailed { c.clearBuf with phase := .done }
  else
    let n := c.bufLen.toNat - c.tlen.toNat
    if outcap.toNat < n then replyErr .bufferTooSmall c
    else
      let w := (decryptWalk E n ((n + 15) / 16) 0 c).foldLengths
      let d := { w.clearBuf with phase := .done }
      if constantTimeEqual (w.tag E) (bufSlice w.buf n w.tlen.toNat) then
        reply d (bufSlice w.buf 0 n)
      else replyErr .authFailed d

/-- DEC_UPDATE (R170). -/
def execDecUpdate (chunk : List Byte) (s : State) : Host.Outcome State Fault Refusal :=
  .next (s.finish (decUpdateReply Config.ptBufBytes chunk s.ctx))

/-- DEC_FINAL (R172). -/
def execDecFinal (outcap : Word64) (s : State) : Host.Outcome State Fault Refusal :=
  .next (s.finish (decFinalReply s.cipher outcap s.ctx))

end Sys2Proof.Machine
end

