-- ==== Sys2Proof/Machine/Encrypt.lean ====
section
/-! DEFINITION. The streaming encrypt pipeline (42_encrypt.md R150 to R155). -/

namespace Sys2Proof.Machine

/-- ENC_UPDATE on the registers (R150). -/
def encUpdateReply (E : Block → Block) (chunk : List Byte) (c : Context) : Reply :=
  if c.phase ≠ .encrypting then replyErr .sequence c
  else
    let d := c.remBytes ++ chunk
    let n := d.length / 16
    let r := encryptBlocks E c ((chunks n d).map blockOf)
    reply (r.1.setRem (d.drop (16 * n))) r.2

/-- ENC_FINAL on the registers (R152). -/
def encFinalReply (E : Block → Block) (outcap : Word64) (c : Context) : Reply :=
  if c.phase ≠ .encrypting then replyErr .sequence c
  else if outcap.toNat < c.remLen.toNat + c.tlen.toNat then replyErr .bufferTooSmall c
  else
    let p := if c.remLen.toNat = 0 then (c, []) else encryptPartial E c
    let d := p.1.foldLengths
    reply { d with phase := .done } (p.2 ++ d.tag E)

/-- ENC_UPDATE (R150). -/
def execEncUpdate (chunk : List Byte) (s : State) : Host.Outcome State Fault Refusal :=
  .next (s.finish (encUpdateReply s.cipher chunk s.ctx))

/-- ENC_FINAL (R152). -/
def execEncFinal (outcap : Word64) (s : State) : Host.Outcome State Fault Refusal :=
  .next (s.finish (encFinalReply s.cipher outcap s.ctx))

end Sys2Proof.Machine
end

