-- ==== Sys2Proof/Machine/Init.lean ====
section
/-! DEFINITION. Context initialization, NOP and ZEROIZE (41_init.md R130 to R136). -/

namespace Sys2Proof.Machine

/-- INIT_ENC (R132). -/
def execInitEnc (tl : BitVec 5) (iv aad : List Byte) (s : State) :
    Host.Outcome State Fault Refusal :=
  .next (s.finish (initReply s.cipher .encrypting tl iv aad s.ctx))

/-- INIT_DEC (R133). -/
def execInitDec (tl : BitVec 5) (iv aad : List Byte) (s : State) :
    Host.Outcome State Fault Refusal :=
  .next (s.finish (initReply s.cipher .decrypting tl iv aad s.ctx))

/-- NOP (R135): report status. -/
def execNop (s : State) : Host.Outcome State Fault Refusal :=
  .next (s.finish (reply s.ctx []))

/-- ZEROIZE (R136): every register to its reset value, in every phase. -/
def execZeroize (s : State) : Host.Outcome State Fault Refusal :=
  .next (s.finish (reply Context.reset []))

end Sys2Proof.Machine
end

