-- ==== Sys2Proof/Machine/Dispatch.lean ====
section
/-! DEFINITION. One arm per command of spec/opcode_table.json. -/

namespace Sys2Proof.Machine

def exec (i : Instr) (s : State) : Host.Outcome State Fault Refusal :=
  match i with
  | .nop => Sys2Proof.Machine.execNop s
  | .initEnc tl iv aad => Sys2Proof.Machine.execInitEnc tl iv aad s
  | .initDec tl iv aad => Sys2Proof.Machine.execInitDec tl iv aad s
  | .encUpdate chunk => Sys2Proof.Machine.execEncUpdate chunk s
  | .decUpdate chunk => Sys2Proof.Machine.execDecUpdate chunk s
  | .encFinal outcap => Sys2Proof.Machine.execEncFinal outcap s
  | .decFinal outcap => Sys2Proof.Machine.execDecFinal outcap s
  | .zeroize => Sys2Proof.Machine.execZeroize s

end Sys2Proof.Machine
end

