-- ==== Sys2Proof/Machine/Step.lean ====
section
/-! DEFINITION. One step of the core (R57, R74, R212, R231): a hardware reset first; else the whole
frame at the head of the bytes received, one command with one response; else the host's next move. -/

namespace Sys2Proof.Machine

/-- One step. -/
def step (s : State) : Host.Outcome State Fault Refusal :=
  if s.resetPending then .next (hardwareReset s)
  else
    match parseFrame s.rx with
    | .command i rest => exec i { s with rx := rest }
    | .illegal _ rest => .next (illegalCommand { s with rx := rest })
    | .incomplete => takeMove s

/-- `s` with the instruction of the table's bits `w` as the frame that the next step reads. -/
def State.withFetchWord (s : State) (nbits w : Nat) : State := s.placeFrame (tableFrame nbits w)

end Sys2Proof.Machine
end

