-- ==== Sys2Proof/Safety.lean ====
section
/-! DEFINITION. The terms in which claims are made: the invariants of the state (10_state.md R23,
R29, R33, R39), the phase tables (R22, R210), runs of commands, and GCM on whole byte strings
(R113, R154), written without the machine's registers. -/

namespace Sys2Proof.Machine

/-! ## Answers and runs -/

/-- `s` after a command that leaves the registers `c` and answers the code `e` and the bytes `out`:
one response more on the response channel (R85), all else outside the context as it was. -/
def State.answered (s : State) (c : Context) (e : Err) (out : List Byte) : State :=
  { ctx := c
    rx := s.rx
    resync := s.resync
    respOut := s.respOut ++ [{ status := statusWord e c, out := out }]
    portKey := s.portKey
    hostIn := s.hostIn }

/-- `n` steps of the core one after another. -/
def steps : Nat → State → Host.Outcome State Fault Refusal
  | 0, s => .next s
  | n + 1, s =>
    match step s with
    | .next t => steps n t
    | .fault r => .fault r
    | .refused r => .refused r

/-- Commands executed one after another (R57). -/
def execAll : List Instr → State → Host.Outcome State Fault Refusal
  | [], s => .next s
  | i :: is, s =>
    match exec i s with
    | .next t => execAll is t
    | .fault r => .fault r
    | .refused r => .refused r

/-- The output bytes of the responses that `t` has and `s` has not, in order (R64). -/
def outputSince (s t : State) : List Byte :=
  (t.respOut.drop s.respOut.length).flatMap (fun r => r.out)

/-- A safe run of commands: it answers a next state, and so meets neither a fault nor a refusal. -/
def RunsOn (is : List Instr) (s : State) : Prop := ∃ t, execAll is s = .next t

/-! ## Frames, legal or not -/

/-- The parts of a frame as R70 lays them out, whether or not its command word is legal. -/
structure RawFrame where
  /-- CW. -/
  word : Word32
  /-- The argument words. -/
  args : List Word64
  /-- The payload bytes. -/
  payload : List Byte
deriving DecidableEq, Repr

/-- The frame has the argument words and the payload that R72 gives its OP. -/
def RawFrame.Whole (f : RawFrame) : Prop :=
  f.args.length = nargs (opField f.word) ∧
  f.payload.length =
    payloadLen (opField f.word) (f.args.getD 0 0).toNat (f.args.getD 1 0).toNat

/-- The bytes of the frame on the command channel (R53, R70). -/
def RawFrame.bytes (f : RawFrame) : List Byte :=
  be32 f.word.toNat ++ (f.args.flatMap (fun a => be64 a.toNat) ++ f.payload)

/-! ## Invariants -/

/-- What holds of the registers after every command (R23, R29, R33, R39, R134). -/
structure Context.Inv (c : Context) : Prop where
  /-- In IDLE and FAILED every other register holds its reset value (R134, R171). -/
  cleared : c.phase = .idle ∨ c.phase = .failed → c = { Context.reset with phase := c.phase }
  /-- In the other phases TLEN is a member of TAGSET (R23). -/
  tlen_legal : c.phase ≠ .idle → c.phase ≠ .failed → tagLegal c.tlen = true
  /-- `REM[REM_LEN..16)` is zero (R29, R39). -/
  rem_padded : c.rem = blockOf c.remBytes
  /-- REM and REM_LEN are used only in ENCRYPTING (R29). -/
  rem_unused : c.phase ≠ .encrypting → c.rem = 0 ∧ c.remLen = 0
  /-- Only full blocks are folded before FINAL (R39). -/
  whole_blocks : c.phase = .encrypting → c.procLen.toNat % 16 = 0
  /-- In DECRYPTING no ciphertext is folded and no counter step is made (R39, R170). -/
  nothing_folded : c.phase = .decrypting → c.procLen = 0 ∧ c.cb = c.j0
  /-- `CB[127:32] = J0[127:32]` (R27, R39). -/
  counter_upper : c.cb.extractLsb' 32 96 = c.j0.extractLsb' 32 96
  /-- `BUF_LEN <= PT_BUF_BYTES` (R33, R39). -/
  buf_fits : c.bufLen.toNat ≤ Config.ptBufBytes
  /-- The list holds exactly the valid bytes of BUF, the rest of BUF being zero (R33). -/
  buf_valid : c.buf.length = c.bufLen.toNat
  /-- BUF and BUF_LEN are zero in every phase but DECRYPTING (R33). -/
  buf_unused : c.phase ≠ .decrypting → c.buf = [] ∧ c.bufLen = 0

/-- The invariant of the whole state. -/
structure State.Inv (s : State) : Prop where
  context : s.ctx.Inv
  /-- While a message is in progress H is `E(zeros(16))` of the port's `E` (R25, R244). -/
  subkey : s.ctx.inMessage = true → s.ctx.h = s.cipher 0
  /-- Nothing is received while the host has not resumed at a frame boundary (R232). -/
  resynced : s.resync = true → s.rx = []

/-! ## Phases -/

/-- The table of R210: the command is legal in the phase. -/
def phaseLegal : Instr → Phase → Bool
  | .nop, _ => true
  | .initEnc _ _ _, p => p == .idle
  | .initDec _ _ _, p => p == .idle
  | .encUpdate _, p => p == .encrypting
  | .decUpdate _, p => p == .decrypting
  | .encFinal _, p => p == .encrypting
  | .decFinal _, p => p == .decrypting
  | .zeroize, _ => true

/-- The rows of R22 that a command makes: from phase `p`, with error code `e`, to phase `q`. -/
def phaseRow : Phase → Instr → Err → Phase → Bool
  | p, .nop, e, q => e == .ok && q == p
  | _, .zeroize, e, q => e == .ok && q == .idle
  | .idle, .initEnc _ _ _, e, q => (e == .ok && q == .encrypting) || (e == .invalidParam && q == .idle)
  | .idle, .initDec _ _ _, e, q => (e == .ok && q == .decrypting) || (e == .invalidParam && q == .idle)
  | .encrypting, .encUpdate _, e, q => e == .ok && q == .encrypting
  | .encrypting, .encFinal _, e, q =>
    (e == .ok && q == .done) || (e == .bufferTooSmall && q == .encrypting)
  | .decrypting, .decUpdate _, e, q =>
    (e == .ok && q == .decrypting) || (e == .outOfMemory && q == .failed)
  | .decrypting, .decFinal _, e, q =>
    ((e == .ok || e == .authFailed) && q == .done) || (e == .bufferTooSmall && q == .decrypting)
  | _, _, _, _ => false

/-! ## GCM on whole byte strings -/

/-- Keystream byte `k` of the stream that starts after counter block `cb`:
`E(inc32^(1 + k div 16)(cb))[k mod 16]` (R154). -/
def keystreamByte (E : Block → Block) (cb : Block) (k : Nat) : Byte :=
  (blockBytes (E (inc32^[1 + k / 16] cb))).getD (k % 16) 0

/-- Byte `k` of the string XORed with keystream byte `k` (R154). -/
def streamXor (E : Block → Block) (cb : Block) (bs : List Byte) : List Byte :=
  bs.mapIdx (fun k b => b ^^^ keystreamByte E cb k)

/-- The final accumulator of a message: AAD, ciphertext, length block (R113). -/
def messageY (h : Block) (aad ct : List Byte) : Block :=
  fold h (ghash h (ghash h 0 aad) ct)
    (lengthBlock (BitVec.ofNat 64 aad.length) (BitVec.ofNat 64 ct.length))

/-- The tag of a message, `n` bytes long (R112, R154). -/
def messageTag (E : Block → Block) (j0 : Block) (n : Nat) (aad ct : List Byte) : List Byte :=
  (blockBytes (E j0 ^^^ messageY (E 0) aad ct)).take n

/-- The registers after FINAL of a message (R152, R172): of the context only what R113, R27 and R31
give. -/
def messageEnd (E : Block → Block) (tl : BitVec 5) (iv aad ct : List Byte) : Context :=
  { phase := .done
    tlen := tl
    h := E 0
    j0 := deriveJ0 (E 0) iv
    cb := inc32^[(ct.length + 15) / 16] (deriveJ0 (E 0) iv)
    y := messageY (E 0) aad ct
    rem := 0
    remLen := 0
    aadLen := BitVec.ofNat 64 aad.length
    procLen := BitVec.ofNat 64 ct.length
    buf := []
    bufLen := 0 }

/-- Byte `k` of BUF (R33). -/
def Context.bufByte (c : Context) (k : Nat) : Byte := c.buf.getD k 0

end Sys2Proof.Machine
end

