-- ==== Sys2Proof/Certificates/Slice0/Obligations.lean ====
section
/-! DEFINITION. The statements for the provers, in the order of the spec: frames, the step, reset,
the invariant, phases and errors, each command, whole messages, the datapath, secrecy. -/

open Sys2Proof Sys2Proof.Machine

/-! ## Frames (30_encoding.md) -/

/-- R89's worked encodings are read as the commands they stand for and are what the encoder writes,
the reserved word `00000008` is a whole illegal frame, and so are further words written out from
R71 to R73, one for every command. -/
def Obligations.WrittenOutFramesDecode : Prop :=
  parseFrame ([0x00, 0x00, 0x10, 0x01,
      0, 0, 0, 0, 0, 0, 0, 0x0c, 0, 0, 0, 0, 0, 0, 0, 0] ++ zeros 12)
    = .command (.initEnc 16 (zeros 12) []) [] ∧
  encode (.initEnc 16 (zeros 12) []) = [0x00, 0x00, 0x10, 0x01,
      0, 0, 0, 0, 0, 0, 0, 0x0c, 0, 0, 0, 0, 0, 0, 0, 0] ++ zeros 12 ∧
  parseFrame [0, 0, 0, 0x05, 0, 0, 0, 0, 0, 0, 0, 0x10] = .command (.encFinal 16) [] ∧
  encode (.encFinal 16) = [0, 0, 0, 0x05, 0, 0, 0, 0, 0, 0, 0, 0x10] ∧
  parseFrame [0, 0, 0, 0x07] = .command .zeroize [] ∧
  encode .zeroize = [0, 0, 0, 0x07] ∧
  parseFrame [0, 0, 0, 0x08] = .illegal .reservedOpcode [] ∧
  parseFrame [0, 0, 0, 0x00, 0xaa] = .command .nop [0xaa] ∧
  parseFrame [0, 0, 0x0c, 0x02, 0, 0, 0, 0, 0, 0, 0, 1, 0, 0, 0, 0, 0, 0, 0, 2, 0x11, 0x22, 0x33]
    = .command (.initDec 12 [0x11] [0x22, 0x33]) [] ∧
  parseFrame [0, 0, 0, 0x03, 0, 0, 0, 0, 0, 0, 0, 1, 0x5a] = .command (.encUpdate [0x5a]) [] ∧
  parseFrame [0, 0, 0, 0x04, 0, 0, 0, 0, 0, 0, 0, 2, 0x5a, 0xa5]
    = .command (.decUpdate [0x5a, 0xa5]) [] ∧
  parseFrame [0, 0, 0, 0x06, 1, 2, 3, 4, 5, 6, 7, 8]
    = .command (.decFinal 0x0102030405060708) []

/-- A well-formed command is read back from its frame, whatever bytes follow. -/
def Obligations.EncodedCommandDecodesBack : Prop :=
  ∀ (i : Instr) (rest : List Byte), i.wf = true → parseFrame (encode i ++ rest) = .command i rest

/-- Every frame read as a command is the encoding of that command: each word has one meaning. -/
def Obligations.DecodedFrameIsItsEncoding : Prop :=
  ∀ (bs rest : List Byte) (i : Instr),
    parseFrame bs = .command i rest → i.wf = true ∧ bs = encode i ++ rest

/-- R75: whatever stands in its argument words and payload, a frame with an illegal command word
is consumed whole and answered ILLEGAL_CMD, with no register changed and nothing emitted; and every
other command word starts a legal command. -/
def Obligations.IllegalWordAnswersIllegalCmd : Prop :=
  ∀ (s : State) (cw : Word32) (args : List Word64) (payload rest : List Byte),
    args.length = nargs (opField cw) →
    payload.length =
      payloadLen (opField cw) (args.getD 0 0).toNat (args.getD 1 0).toNat →
    s.resetPending = false →
    s.rx = be32 cw.toNat ++ (args.flatMap (fun a => be64 a.toNat) ++ (payload ++ rest)) →
    ((8 ≤ (cw.extractLsb' 0 8).toNat ∨ cw.extractLsb' 13 19 ≠ 0 ∨
        ((cw.extractLsb' 0 8).toNat ≠ 1 ∧ (cw.extractLsb' 0 8).toNat ≠ 2 ∧
          cw.extractLsb' 8 5 ≠ 0)) →
      step s = .next ({ s with rx := rest }.answered s.ctx .illegalCmd [])) ∧
    (¬ (8 ≤ (cw.extractLsb' 0 8).toNat ∨ cw.extractLsb' 13 19 ≠ 0 ∨
        ((cw.extractLsb' 0 8).toNat ≠ 1 ∧ (cw.extractLsb' 0 8).toNat ≠ 2 ∧
          cw.extractLsb' 8 5 ≠ 0)) →
      ∃ i, i.wf = true ∧ parseFrame s.rx = .command i rest ∧
        step s = exec i { s with rx := rest })

/-- No part of a frame, legal or not, is served before the frame is whole: on a proper prefix the
core takes the host's next move, and with none it waits with nothing changed. -/
def Obligations.UnfinishedFrameWaits : Prop :=
  ∀ (s : State) (cw : Word32) (args : List Word64) (payload p q : List Byte),
    args.length = nargs (opField cw) →
    payload.length =
      payloadLen (opField cw) (args.getD 0 0).toNat (args.getD 1 0).toNat →
    p ++ q = be32 cw.toNat ++ (args.flatMap (fun a => be64 a.toNat) ++ payload) →
    q ≠ [] →
    s.rx = p →
    parseFrame p = .incomplete ∧
    (s.hostIn = [] → step s = .next s) ∧
    (∀ bs t, s.hostIn = .bytes bs :: t → s.resync = false →
      step s = .next { s with rx := p ++ bs, hostIn := t })

/-! ## The step (20_memory.md, 70_reset_and_hazards.md) -/

/-- When the bytes received begin with a whole frame of a legal command and no reset is pending, a
step is that command's execution at the state whose received bytes are those after the frame. -/
def Obligations.StepRunsTheDecodedCommand : Prop :=
  ∀ (s : State) (i : Instr) (rest : List Byte),
    i.wf = true → s.resetPending = false → s.rx = encode i ++ rest →
    step s = exec i { s with rx := rest }

/-- Frames on the command channel are served one at a time in the order sent (R57): as many steps as
there are frames execute the commands one after another, each seeing the effect of those before it,
and leave the bytes after the last frame. -/
def Obligations.FramesAreServedInOrder : Prop :=
  ∀ (s : State) (is : List Instr) (rest : List Byte),
    (∀ i ∈ is, i.wf = true) → s.resetPending = false → s.rx = is.flatMap encode ++ rest →
    steps is.length s = execAll is { s with rx := rest }

/-- A hardware reset and a ZEROIZE leave every register at the value of R40 (R230, R136, R233);
ZEROIZE answers a response, the reset none. A reset at a frame boundary leaves `resync` as it was,
so that the next byte is the first of a command word (R231); one that cuts a frame sets it (R232).
The model's choice (notes/assumptions/4.md): the reset is taken before whole frames already
received, every byte received is dropped, and `resync` is the form in which R232 is kept. -/
def Obligations.ResetAndZeroizeLeaveResetValues : Prop :=
  ∀ s : State,
    (∀ rest, s.hostIn = .reset :: rest →
      ∃ t, step s = .next t ∧ t.respOut = s.respOut ∧ t.rx = [] ∧ t.portKey = s.portKey ∧
        t.hostIn = rest ∧
        t.ctx = { phase := .idle, tlen := 0, h := 0, j0 := 0, cb := 0, y := 0, rem := 0,
                  remLen := 0, aadLen := 0, procLen := 0, buf := [], bufLen := 0 } ∧
        ∀ fs : List RawFrame, (∀ f ∈ fs, f.Whole) →
          (s.rx = fs.flatMap RawFrame.bytes → t.resync = s.resync) ∧
          (∀ (f : RawFrame) (p q : List Byte), f.Whole → f.bytes = p ++ q → p ≠ [] → q ≠ [] →
            s.rx = fs.flatMap RawFrame.bytes ++ p → t.resync = true)) ∧
    (∀ (fs : List RawFrame) (bs : List Byte) rest, (∀ f ∈ fs, f.Whole) →
      s.rx = fs.flatMap RawFrame.bytes → s.resync = false →
      s.hostIn = .reset :: .bytes bs :: rest →
      steps 2 s = .next { s with ctx := Context.reset, rx := bs, hostIn := rest }) ∧
    exec .zeroize s = .next (s.answered
        { phase := .idle, tlen := 0, h := 0, j0 := 0, cb := 0, y := 0, rem := 0,
          remLen := 0, aadLen := 0, procLen := 0, buf := [], bufLen := 0 } .ok []) ∧
    statusWord .ok Context.reset = 0x00000000

/-- R232: a reset that cuts a frame short answers nothing and leaves no effect, and the bytes of
that frame still to come are not parsed. The model's choice (notes/assumptions/4.md): whatever bytes
come, in any number of the host's moves, are dropped until the move `boundary`, and while they are,
such a move changes nothing but the list of moves. -/
def Obligations.AbandonedFrameIsNotParsed : Prop :=
  (∀ (s : State) (fs : List RawFrame) (f : RawFrame) (p q : List Byte) (late : List (List Byte))
      (rest : List HostMove),
    (∀ g ∈ fs, g.Whole) → f.Whole → f.bytes = p ++ q → p ≠ [] → q ≠ [] →
    s.rx = fs.flatMap RawFrame.bytes ++ p →
    s.hostIn = .reset :: (late.map .bytes ++ rest) →
    steps (late.length + 1) s =
      .next { s with ctx := Context.reset, rx := [], resync := true, hostIn := rest } ∧
    (∀ tail, rest = .boundary :: tail →
      steps (late.length + 2) s =
        .next { s with ctx := Context.reset, rx := [], resync := false, hostIn := tail })) ∧
  (∀ (s : State) (bs : List Byte) (rest : List HostMove),
    s.resync = true → s.rx = [] → s.hostIn = .bytes bs :: rest →
    step s = .next { s with hostIn := rest })

/-- The model's choice of notes/assumptions/1.md, after R244: the host selects the key of the port
between messages, and a change of key from INIT to the end of FINAL is refused. -/
def Obligations.KeyChangesOnlyBetweenMessages : Prop :=
  ∀ (s : State) (k : Nat) (rest : List HostMove),
    s.rx = [] → s.hostIn = .key k :: rest →
    (s.ctx.phase = .idle ∨ s.ctx.phase = .done ∨ s.ctx.phase = .failed ∨ k = s.portKey →
      step s = .next { s with portKey := k, hostIn := rest }) ∧
    (s.ctx.phase = .encrypting ∨ s.ctx.phase = .decrypting → k ≠ s.portKey →
      step s = .refused .keyChangedInMessage)

/-! ## The invariant (10_state.md) -/

/-- The state after reset meets the invariant. -/
def Obligations.ResetMeetsTheInvariant : Prop := State.reset.Inv

/-- Every step keeps the invariant, and the invariant gives each clause of R39. -/
def Obligations.StepKeepsTheInvariant : Prop :=
  (∀ s t : State, s.Inv → step s = .next t → t.Inv) ∧
  (∀ s : State, s.Inv →
    s.ctx.remLen.toNat < 16 ∧
    (blockBytes s.ctx.rem).drop s.ctx.remLen.toNat = zeros (16 - s.ctx.remLen.toNat) ∧
    (s.ctx.phase = .encrypting → s.ctx.procLen.toNat % 16 = 0) ∧
    (s.ctx.phase = .decrypting → s.ctx.procLen = 0) ∧
    s.ctx.cb.extractLsb' 32 96 = s.ctx.j0.extractLsb' 32 96 ∧
    s.ctx.bufLen.toNat ≤ Config.ptBufBytes)

/-- A run of steps from any state that meets the invariant (the state after reset is one), whatever
moves the host adds at the end of its list before each step, ends in a state that meets it. -/
def Obligations.HostDrivenRunsKeepTheInvariant : Prop :=
  ∀ (inputs : List (List HostMove)) (s t : State), s.Inv →
    inputs.foldl
      (fun (o : Host.Outcome State Fault Refusal) ms =>
        match o with
        | .next u => step { u with hostIn := u.hostIn ++ ms }
        | .fault r => .fault r
        | .refused r => .refused r) (.next s) = .next t →
    t.Inv

/-! ## Phases, status and errors (10_state.md, 60_exceptions.md) -/

/-- R22: each command takes its phase as a row of the table says, with no state change in the rows
of INVALID_PARAM and BUFFER_TOO_SMALL, or the pair is not listed and the command leaves every
register as it was and answers SEQUENCE; a hardware reset goes to IDLE; and no command leads from
ENCRYPTING to DECRYPTING or back. -/
def Obligations.PhaseChangesOnlyByTheTable : Prop :=
  (∀ (i : Instr) (s : State), ∃ c e out, exec i s = .next (s.answered c e out) ∧
    (phaseRow s.ctx.phase i e c.phase = true ∨
      ((∀ e' q, phaseRow s.ctx.phase i e' q = false) ∧ c = s.ctx ∧ e = .sequence)) ∧
    (e = .invalidParam ∨ e = .bufferTooSmall → c = s.ctx) ∧
    ¬ (s.ctx.phase = .encrypting ∧ c.phase = .decrypting) ∧
    ¬ (s.ctx.phase = .decrypting ∧ c.phase = .encrypting)) ∧
  (∀ (s t : State) rest, s.hostIn = .reset :: rest → step s = .next t → t.ctx.phase = .idle)

/-- R210: where the table says SEQUENCE the command answers SEQUENCE with no register changed and
nothing emitted, and where it says legal the answer is never SEQUENCE. -/
def Obligations.WrongPhaseAnswersSequence : Prop :=
  ∀ (i : Instr) (s : State),
    (phaseLegal i s.ctx.phase = false → exec i s = .next (s.answered s.ctx .sequence [])) ∧
    (phaseLegal i s.ctx.phase = true →
      ∃ c e out, exec i s = .next (s.answered c e out) ∧ e ≠ .sequence)

/-- Every command answers exactly one response (R85), and every error has the effect R202 gives it:
SEQUENCE, INVALID_PARAM and BUFFER_TOO_SMALL change nothing, OUT_OF_MEMORY resets the registers and
sets FAILED, AUTH_FAILED zeroes BUF and sets DONE; an error emits nothing, and no command answers
UNSUPPORTED_IMPL (R203) or, being legal, ILLEGAL_CMD. -/
def Obligations.ErrorsHaveTheirEffects : Prop :=
  ∀ (i : Instr) (s : State), ∃ c e out, exec i s = .next (s.answered c e out) ∧
    (e ≠ .ok → out = []) ∧
    (e = .sequence ∨ e = .invalidParam ∨ e = .bufferTooSmall → c = s.ctx) ∧
    (e = .outOfMemory → c = { Context.reset with phase := .failed }) ∧
    (e = .authFailed → c.phase = .done ∧ c.buf = [] ∧ c.bufLen = 0 ∧
      c.tlen = s.ctx.tlen ∧ c.h = s.ctx.h ∧ c.j0 = s.ctx.j0 ∧ c.aadLen = s.ctx.aadLen ∧
      c.rem = s.ctx.rem ∧ c.remLen = s.ctx.remLen) ∧
    e ≠ .unsupportedImpl ∧ e ≠ .illegalCmd

/-- R34 and the codes of R21 and R200: the fields of STATUS, its reserved bits zero, and STATUS,
OUTLEN and the output bytes in the response frame (R85). -/
def Obligations.StatusWordLayout : Prop :=
  (∀ (e : Err) (c : Context),
    (statusWord e c).extractLsb' 0 4 = e.code ∧
    (statusWord e c).extractLsb' 4 3 = c.phase.code ∧
    (statusWord e c).getLsbD 7 = false ∧
    (statusWord e c).extractLsb' 8 5 = c.tlen ∧
    (statusWord e c).extractLsb' 13 19 = 0) ∧
  (∀ r : Response, r.out.length < 2 ^ 64 →
    BitVec.ofNat 32 (beNat (r.bytes.take 4)) = r.status ∧
    beNat ((r.bytes.drop 4).take 8) = r.out.length ∧ r.bytes.drop 12 = r.out) ∧
  [Phase.idle, .encrypting, .decrypting, .done, .failed].map Phase.code = [0, 1, 2, 3, 4] ∧
  [Err.ok, .invalidParam, .outOfMemory, .unsupportedImpl, .authFailed, .bufferTooSmall, .sequence,
    .illegalCmd].map Err.code = [0, 1, 2, 3, 4, 5, 6, 7]

/-- Which commands may change a register (the "written by" column of R35); with R25 and R26, H and
J0 change only at INIT, ZEROIZE and the buffer overflow of R171. -/
def Obligations.OnlyItsWritersChangeARegister : Prop :=
  ∀ (i : Instr) (s : State), ∃ c e out, exec i s = .next (s.answered c e out) ∧
    ((e = .ok ∧ ((∃ tl iv aad, i = .initEnc tl iv aad) ∨ (∃ tl iv aad, i = .initDec tl iv aad) ∨
        i = .zeroize)) ∨
      (e = .outOfMemory ∧ ∃ chunk, i = .decUpdate chunk) ∨
      (c.tlen = s.ctx.tlen ∧ c.h = s.ctx.h ∧ c.j0 = s.ctx.j0 ∧ c.aadLen = s.ctx.aadLen ∧
        ((∀ chunk, i ≠ .encUpdate chunk) → (∀ n, i ≠ .encFinal n) →
          c.rem = s.ctx.rem ∧ c.remLen = s.ctx.remLen) ∧
        ((∀ chunk, i ≠ .encUpdate chunk) → (∀ n, i ≠ .encFinal n) → (∀ n, i ≠ .decFinal n) →
          c.cb = s.ctx.cb ∧ c.y = s.ctx.y ∧ c.procLen = s.ctx.procLen) ∧
        ((∀ chunk, i ≠ .decUpdate chunk) → (∀ n, i ≠ .decFinal n) →
          c.buf = s.ctx.buf ∧ c.bufLen = s.ctx.bufLen) ∧
        ((∀ n, i ≠ .encFinal n) → (∀ n, i ≠ .decFinal n) → c.phase = s.ctx.phase)))

/-- No command, and no sequence of commands, stops the core (R204); the only step with no next state
is the host's change of key in a message (notes/assumptions/1.md), and from every state a ZEROIZE
goes to IDLE. -/
def Obligations.CommandsNeverStopTheCore : Prop :=
  (∀ (is : List Instr) (s : State), RunsOn is s) ∧
  (∀ (s : State) (r : Refusal), step s = .refused r → r = .keyChangedInMessage ∧
    s.ctx.inMessage = true ∧ ∃ k rest, s.hostIn = .key k :: rest ∧ k ≠ s.portKey) ∧
  (∀ (is : List Instr) (s : State), ∃ t, execAll (is ++ [.zeroize]) s = .next t ∧
    t.ctx = Context.reset)

/-! ## The commands (41_init.md, 42_encrypt.md, 43_decrypt.md) -/

/-- NOP (R135): in every phase OK, no register written, nothing emitted; a frame with OP 0x00 and
any other bit of the word set is ILLEGAL_CMD. -/
def Obligations.NopReportsStatus : Prop :=
  ∀ s : State, exec .nop s = .next (s.answered s.ctx .ok []) ∧
    (∀ (cw : Word32) (rest : List Byte), cw.extractLsb' 0 8 = 0 → cw ≠ 0 →
      s.resetPending = false → s.rx = be32 cw.toNat ++ rest →
      step s = .next ({ s with rx := rest }.answered s.ctx .illegalCmd []))

/-- INIT_ENC in IDLE with a legal tag length and a non-empty IV (R130, R131, R132): every register
written, with J0 by R108 for a 12-byte IV and by R109 for any other, nothing emitted. -/
def Obligations.InitEncStartsEncryption : Prop :=
  ∀ (s : State) (tl : BitVec 5) (iv aad : List Byte),
    s.ctx.phase = .idle → tl.toNat ∈ [4, 8, 12, 13, 14, 15, 16] → iv ≠ [] →
    ∃ j : Block,
      (iv.length = 12 → blockBytes j = iv ++ [0, 0, 0, 1]) ∧
      (iv.length ≠ 12 → j = fold (s.cipher 0) (ghash (s.cipher 0) 0 iv)
        (blockOf (zeros 8 ++ be64 (8 * iv.length)))) ∧
      exec (.initEnc tl iv aad) s = .next (s.answered
        { phase := .encrypting, tlen := tl, h := s.cipher 0, j0 := j, cb := j,
          y := ghash (s.cipher 0) 0 aad, rem := 0, remLen := 0,
          aadLen := BitVec.ofNat 64 aad.length, procLen := 0, buf := [], bufLen := 0 } .ok [])

/-- INIT_DEC in IDLE with a legal tag length and a non-empty IV (R130, R131, R133). -/
def Obligations.InitDecStartsDecryption : Prop :=
  ∀ (s : State) (tl : BitVec 5) (iv aad : List Byte),
    s.ctx.phase = .idle → tl.toNat ∈ [4, 8, 12, 13, 14, 15, 16] → iv ≠ [] →
    ∃ j : Block,
      (iv.length = 12 → blockBytes j = iv ++ [0, 0, 0, 1]) ∧
      (iv.length ≠ 12 → j = fold (s.cipher 0) (ghash (s.cipher 0) 0 iv)
        (blockOf (zeros 8 ++ be64 (8 * iv.length)))) ∧
      exec (.initDec tl iv aad) s = .next (s.answered
        { phase := .decrypting, tlen := tl, h := s.cipher 0, j0 := j, cb := j,
          y := ghash (s.cipher 0) 0 aad, rem := 0, remLen := 0,
          aadLen := BitVec.ofNat 64 aad.length, procLen := 0, buf := [], bufLen := 0 } .ok [])

/-- R130: SEQUENCE outside IDLE, then INVALID_PARAM for a tag length outside the set, then
INVALID_PARAM for an empty IV, each with no register changed and nothing emitted, for both INITs;
and the whole frame is consumed all the same. -/
def Obligations.InitValidatesInOrder : Prop :=
  ∀ (s : State) (tl : BitVec 5) (iv aad rest : List Byte) (i : Instr),
    i = .initEnc tl iv aad ∨ i = .initDec tl iv aad → i.wf = true →
    s.resetPending = false → s.rx = encode i ++ rest →
    (s.ctx.phase ≠ .idle →
      step s = .next ({ s with rx := rest }.answered s.ctx .sequence [])) ∧
    (s.ctx.phase = .idle → tl.toNat ∉ [4, 8, 12, 13, 14, 15, 16] →
      step s = .next ({ s with rx := rest }.answered s.ctx .invalidParam [])) ∧
    (s.ctx.phase = .idle → tl.toNat ∈ [4, 8, 12, 13, 14, 15, 16] → iv = [] →
      step s = .next ({ s with rx := rest }.answered s.ctx .invalidParam []))

/-- ENC_UPDATE in ENCRYPTING (R150, R151): with D the bytes of REM and then the chunk, the full
blocks of D are encrypted with the keystream after CB, emitted and folded; CB steps once and
PROC_LEN grows by 16 per block; the rest of D is left in REM; every other register stays. -/
def Obligations.EncUpdateRunsThePipeline : Prop :=
  ∀ (s : State) (chunk d ct : List Byte) (n : Nat),
    s.ctx.phase = .encrypting →
    d = (blockBytes s.ctx.rem).take s.ctx.remLen.toNat ++ chunk →
    n = d.length / 16 →
    ct = streamXor s.cipher s.ctx.cb (d.take (16 * n)) →
    exec (.encUpdate chunk) s = .next (s.answered
      { s.ctx with
        cb := inc32^[n] s.ctx.cb
        y := ghash s.ctx.h s.ctx.y ct
        procLen := s.ctx.procLen + BitVec.ofNat 64 ct.length
        rem := blockOf (d.drop (16 * n))
        remLen := BitVec.ofNat 4 (d.drop (16 * n)).length } .ok ct)

/-- A LEN = 0 update changes nothing and emits nothing (R150 and R170, corner cases), in a state
that meets the invariant of `StepKeepsTheInvariant`. -/
def Obligations.EmptyUpdateChangesNothing : Prop :=
  ∀ s : State, s.ctx.Inv →
    (s.ctx.phase = .encrypting → exec (.encUpdate []) s = .next (s.answered s.ctx .ok [])) ∧
    (s.ctx.phase = .decrypting → exec (.decUpdate []) s = .next (s.answered s.ctx .ok []))

/-- Two ENC_UPDATEs of a split chunk emit together what one ENC_UPDATE of the whole chunk emits and
leave the same registers (R54, R154). -/
def Obligations.EncUpdateSplitsJoin : Prop :=
  ∀ (s : State) (a b : List Byte), s.ctx.phase = .encrypting →
    ∃ c₁ c₂ out₁ out₂,
      exec (.encUpdate a) s = .next (s.answered c₁ .ok out₁) ∧
      exec (.encUpdate b) (s.answered c₁ .ok out₁) =
        .next ((s.answered c₁ .ok out₁).answered c₂ .ok out₂) ∧
      exec (.encUpdate (a ++ b)) s = .next (s.answered c₂ .ok (out₁ ++ out₂))

/-- ENC_FINAL in ENCRYPTING with room for its output (R152, R153, R110, R112): the r bytes of REM
are encrypted with the first r bytes of the next keystream block and folded padded with zeros (when
r is 0 there is no counter step and no fold), then the length block is folded; the output is those
r ciphertext bytes and the first TLEN bytes of `E(J0) XOR Y`. REM is zeroed when r is above 0; when
r is 0, R152 does not write it, and it is zero already in a state that meets the invariant
(notes/assumptions/10.md). -/
def Obligations.EncFinalEmitsCiphertextAndTag : Prop :=
  ∀ (s : State) (outcap : Word64) (r : Nat) (ct : List Byte) (y rem : Block),
    s.ctx.phase = .encrypting →
    r = s.ctx.remLen.toNat →
    r + s.ctx.tlen.toNat ≤ outcap.toNat →
    ct = streamXor s.cipher s.ctx.cb ((blockBytes s.ctx.rem).take r) →
    y = fold s.ctx.h (if r = 0 then s.ctx.y else fold s.ctx.h s.ctx.y (blockOf (ct ++ zeros (16 - r))))
      (blockOf (be64 (8 * s.ctx.aadLen.toNat) ++ be64 (8 * (s.ctx.procLen.toNat + r)))) →
    rem = (if r = 0 then s.ctx.rem else 0) →
    exec (.encFinal outcap) s = .next (s.answered
      { s.ctx with
        phase := .done
        cb := if r = 0 then s.ctx.cb else inc32 s.ctx.cb
        y := y
        procLen := s.ctx.procLen + BitVec.ofNat 64 r
        rem := rem
        remLen := 0 } .ok
      (ct ++ (blockBytes (s.cipher s.ctx.j0 ^^^ y)).take s.ctx.tlen.toNat)) ∧
    (s.ctx.Inv → rem = 0)

/-- ENC_FINAL and DEC_FINAL without room for their output answer BUFFER_TOO_SMALL with no register
changed and nothing emitted (R152; R172 after its length check), so that a retry with enough room
answers as the first command would have. -/
def Obligations.FinalWithoutRoomCanBeRetried : Prop :=
  ∀ (s : State) (small large : Word64),
    (s.ctx.phase = .encrypting → small.toNat < s.ctx.remLen.toNat + s.ctx.tlen.toNat →
      exec (.encFinal small) s = .next (s.answered s.ctx .bufferTooSmall []) ∧
      ∀ c e out, exec (.encFinal large) s = .next (s.answered c e out) →
        exec (.encFinal large) (s.answered s.ctx .bufferTooSmall []) =
          .next ((s.answered s.ctx .bufferTooSmall []).answered c e out)) ∧
    (s.ctx.phase = .decrypting → s.ctx.tlen.toNat ≤ s.ctx.bufLen.toNat →
      small.toNat < s.ctx.bufLen.toNat - s.ctx.tlen.toNat →
      exec (.decFinal small) s = .next (s.answered s.ctx .bufferTooSmall []) ∧
      ∀ c e out, exec (.decFinal large) s = .next (s.answered c e out) →
        exec (.decFinal large) (s.answered s.ctx .bufferTooSmall []) =
          .next ((s.answered s.ctx .bufferTooSmall []).answered c e out))

/-- DEC_UPDATE in DECRYPTING of a chunk that fits (R170): the chunk's bytes stand in BUF from
BUF_LEN on, every other byte of BUF and every register but BUF and BUF_LEN stays, nothing is
emitted. -/
def Obligations.DecUpdateAppendsToBuf : Prop :=
  ∀ (s : State) (chunk : List Byte),
    s.ctx.phase = .decrypting →
    s.ctx.bufLen.toNat + chunk.length ≤ Config.ptBufBytes →
    ∃ buf bufLen, exec (.decUpdate chunk) s =
        .next (s.answered { s.ctx with buf := buf, bufLen := bufLen } .ok []) ∧
      bufLen.toNat = s.ctx.bufLen.toNat + chunk.length ∧
      ∀ k, buf.getD k 0 =
        if s.ctx.bufLen.toNat ≤ k ∧ k < s.ctx.bufLen.toNat + chunk.length
        then chunk.getD (k - s.ctx.bufLen.toNat) 0 else s.ctx.bufByte k

/-- R171: a chunk that does not fit resets every register, sets FAILED, stores nothing and answers
OUT_OF_MEMORY with STATUS 0x00000042; afterwards only NOP and ZEROIZE are accepted. -/
def Obligations.DecUpdateOverflowFails : Prop :=
  ∀ (s : State) (chunk : List Byte),
    s.ctx.phase = .decrypting → Config.ptBufBytes < s.ctx.bufLen.toNat + chunk.length →
    ∃ t, exec (.decUpdate chunk) s = .next t ∧
      t = { s with
            ctx := { phase := .failed, tlen := 0, h := 0, j0 := 0, cb := 0, y := 0, rem := 0,
                     remLen := 0, aadLen := 0, procLen := 0, buf := [], bufLen := 0 }
            respOut := s.respOut ++ [{ status := 0x00000042, out := [] }] } ∧
      ∀ i : Instr, exec i t = .next (t.answered t.ctx .sequence []) ↔ i ≠ .nop ∧ i ≠ .zeroize

/-- Two DEC_UPDATEs of a split chunk leave the registers that one DEC_UPDATE of the whole chunk
leaves (R54, R170), in a state that meets the invariant of `StepKeepsTheInvariant`. -/
def Obligations.DecUpdateSplitsJoin : Prop :=
  ∀ (s : State) (a b : List Byte), s.ctx.Inv → s.ctx.phase = .decrypting →
    s.ctx.bufLen.toNat + a.length + b.length ≤ Config.ptBufBytes →
    ∃ c₁ c₂,
      exec (.decUpdate a) s = .next (s.answered c₁ .ok []) ∧
      exec (.decUpdate b) (s.answered c₁ .ok []) =
        .next ((s.answered c₁ .ok []).answered c₂ .ok []) ∧
      exec (.decUpdate (a ++ b)) s = .next (s.answered c₂ .ok []) ∧
      c₂.buf = s.ctx.buf ++ (a ++ b)

/-- DEC_FINAL in DECRYPTING with a whole tag in BUF and room for the plaintext (R172, R173, R174),
in a state that meets the invariant of `StepKeepsTheInvariant`: the ciphertext (all of BUF but its
last TLEN bytes) is folded, then the length block; when the first TLEN bytes of `E(J0) XOR Y` are
the received tag the plaintext is emitted with OK, else nothing is emitted with AUTH_FAILED; in
both cases BUF is zeroed, CB has stepped once per block, PROC_LEN has grown by the ciphertext's
length, PHASE is DONE, and every other register stays. -/
def Obligations.DecFinalVerifiesThenReleases : Prop :=
  ∀ (s : State) (outcap : Word64) (n : Nat) (ct tag : List Byte) (y : Block) (c : Context),
    s.ctx.Inv → s.ctx.phase = .decrypting →
    s.ctx.buf = ct ++ tag → tag.length = s.ctx.tlen.toNat → n = ct.length → n ≤ outcap.toNat →
    y = fold s.ctx.h (ghash s.ctx.h s.ctx.y ct)
      (blockOf (be64 (8 * s.ctx.aadLen.toNat) ++ be64 (8 * n))) →
    c = { s.ctx with
          phase := .done
          cb := inc32^[(n + 15) / 16] s.ctx.cb
          y := y
          procLen := BitVec.ofNat 64 n
          buf := []
          bufLen := 0 } →
    ((blockBytes (s.cipher s.ctx.j0 ^^^ y)).take s.ctx.tlen.toNat = tag →
      exec (.decFinal outcap) s =
        .next (s.answered c .ok (streamXor s.cipher s.ctx.cb ct))) ∧
    ((blockBytes (s.cipher s.ctx.j0 ^^^ y)).take s.ctx.tlen.toNat ≠ tag →
      exec (.decFinal outcap) s = .next (s.answered c .authFailed []))

/-- R176: an input shorter than the tag answers AUTH_FAILED with no output, BUF zeroed, PHASE DONE,
and no fold, counter step or other register write, whatever OUTCAP is. -/
def Obligations.ShortDecryptInputFailsAuthentication : Prop :=
  ∀ (s : State) (outcap : Word64),
    s.ctx.phase = .decrypting → s.ctx.bufLen.toNat < s.ctx.tlen.toNat →
    exec (.decFinal outcap) s = .next (s.answered
      { s.ctx with phase := .done, buf := [], bufLen := 0 } .authFailed [])

/-- R174: for strings of one length the comparison is true exactly when every byte agrees, and so
exactly when the strings are equal. -/
def Obligations.TagComparisonIsEquality : Prop :=
  ∀ a b : List Byte, a.length = b.length →
    (constantTimeEqual a b = true ↔ ∀ k, k < a.length → a.getD k 0 = b.getD k 0) ∧
    (constantTimeEqual a b = true ↔ a = b)

/-- The release contract (R175): in DECRYPTING, in a state that meets the invariant of
`StepKeepsTheInvariant`, only a DEC_FINAL that answers OK emits a byte; it emits all n plaintext
bytes at once, and only when the tag of the whole message is the received one. -/
def Obligations.PlaintextOnlyAfterVerification : Prop :=
  ∀ (i : Instr) (s : State), s.ctx.Inv → s.ctx.phase = .decrypting →
    ∃ c e out, exec i s = .next (s.answered c e out) ∧
      (out ≠ [] → e = .ok ∧ (∃ n, i = .decFinal n) ∧
        ∃ ct tag, s.ctx.buf = ct ++ tag ∧ tag.length = s.ctx.tlen.toNat ∧
          out.length = ct.length ∧
          tag = (blockBytes (s.cipher s.ctx.j0 ^^^
            fold s.ctx.h (ghash s.ctx.h s.ctx.y ct)
              (blockOf (be64 (8 * s.ctx.aadLen.toNat) ++ be64 (8 * ct.length))))).take
            s.ctx.tlen.toNat)

/-! ## Whole messages (R113, R154, R177) -/

/-- A message encrypted in any chunks (R154, R113): the outputs of all responses together are the
ciphertext, plaintext byte k XORed with `E(inc32^(1 + k div 16)(J0))[k mod 16]`, and then the tag;
the final registers depend on the message alone, not on its chunks; and one response is answered
per command. -/
def Obligations.EncryptedMessageIsGcm : Prop :=
  ∀ (s : State) (tl : BitVec 5) (iv aad : List Byte) (chunks : List (List Byte))
    (outcap : Word64) (ct : List Byte),
    s.ctx.phase = .idle → tagLegal tl = true → iv ≠ [] →
    chunks.flatten.length % 16 + tl.toNat ≤ outcap.toNat →
    ct = streamXor s.cipher (deriveJ0 (s.cipher 0) iv) chunks.flatten →
    ∃ t, execAll (.initEnc tl iv aad :: (chunks.map .encUpdate ++ [.encFinal outcap])) s = .next t ∧
      outputSince s t =
        ct ++ messageTag s.cipher (deriveJ0 (s.cipher 0) iv) tl.toNat aad ct ∧
      t.ctx = messageEnd s.cipher tl iv aad ct ∧
      t.respOut.length = s.respOut.length + chunks.length + 2

/-- A message decrypted in any chunks (R172, R113): when the last TLEN bytes received are the
message's tag the last response is OK with the plaintext, else AUTH_FAILED with no output; no other
response has an output; the final registers are those of the message in both cases; and one response
is answered per command. -/
def Obligations.DecryptedMessageIsGcm : Prop :=
  ∀ (s : State) (tl : BitVec 5) (iv aad : List Byte) (chunks : List (List Byte))
    (outcap : Word64) (ct tag : List Byte),
    s.ctx.phase = .idle → tagLegal tl = true → iv ≠ [] →
    chunks.flatten = ct ++ tag → tag.length = tl.toNat →
    ct.length + tag.length ≤ Config.ptBufBytes → ct.length ≤ outcap.toNat →
    ∃ t, execAll (.initDec tl iv aad :: (chunks.map .decUpdate ++ [.decFinal outcap])) s = .next t ∧
      outputSince s t =
        (if tag = messageTag s.cipher (deriveJ0 (s.cipher 0) iv) tl.toNat aad ct
          then streamXor s.cipher (deriveJ0 (s.cipher 0) iv) ct else []) ∧
      t.ctx = messageEnd s.cipher tl iv aad ct ∧
      t.respOut.length = s.respOut.length + chunks.length + 2 ∧
      t.respOut.getLast? = some
        { status := statusWord
            (if tag = messageTag s.cipher (deriveJ0 (s.cipher 0) iv) tl.toNat aad ct
              then .ok else .authFailed) t.ctx
          out := outputSince s t }

/-- Round trip (the first two laws of R177): what an encrypt context emits, sent in any split to a
decrypt context under the same key, IV, AAD and tag length, gives DEC_FINAL OK with the plaintext as
its output, and the two contexts end with the same registers. -/
def Obligations.DecryptUndoesEncrypt : Prop :=
  ∀ (s u : State) (tl : BitVec 5) (iv aad : List Byte) (chunks chunks' : List (List Byte))
    (outcap outcap' : Word64),
    s.ctx.phase = .idle → u.ctx.phase = .idle → u.portKey = s.portKey →
    tagLegal tl = true → iv ≠ [] →
    chunks.flatten.length % 16 + tl.toNat ≤ outcap.toNat →
    chunks.flatten.length + tl.toNat ≤ Config.ptBufBytes →
    chunks.flatten.length ≤ outcap'.toNat →
    ∃ t, execAll (.initEnc tl iv aad :: (chunks.map .encUpdate ++ [.encFinal outcap])) s = .next t ∧
      (chunks'.flatten = outputSince s t →
        ∃ v, execAll (.initDec tl iv aad :: (chunks'.map .decUpdate ++ [.decFinal outcap'])) u
              = .next v ∧
          outputSince u v = chunks.flatten ∧ v.ctx = t.ctx ∧
          v.respOut.getLast? = some { status := statusWord .ok v.ctx, out := chunks.flatten })

/-! ## The datapath (40_ghash_counter.md, 00_scope.md R16) -/

/-- The laws of R102: commutative, associative, distributive over XOR, zero, the identity
`80 00 .. 00`, and `x^127 * x = e1 00 .. 00`. -/
def Obligations.MultiplierFieldLaws : Prop :=
  (∀ x y : Block, gfMul x y = gfMul y x) ∧
  (∀ x y w : Block, gfMul (gfMul x y) w = gfMul x (gfMul y w)) ∧
  (∀ x w y : Block, gfMul (x ^^^ w) y = gfMul x y ^^^ gfMul w y) ∧
  (∀ y : Block, gfMul 0 y = 0) ∧
  (∀ y : Block, gfMul (blockOf [0x80]) y = y) ∧
  gfMul (BitVec.ofNat 128 1) (BitVec.ofNat 128 (2 ^ 126)) = blockOf [0xe1]

/-- R101: the carry-less product and XOR reduction give the value of the bit-serial rule R100 on
every pair of blocks. -/
def Obligations.CarryLessFormAgrees : Prop := ∀ x y : Block, gfMul x y = gfMulCarryless x y

/-- R106 and R107: the number and the bytes of `inc32(C)`, the low 32 bits wrapping to zero with no
carry into bit 32. -/
def Obligations.CounterStepWrapsInThirtyTwoBits : Prop :=
  ∀ c : Block,
    (inc32 c).toNat = c.toNat / 2 ^ 32 * 2 ^ 32 + (c.toNat % 2 ^ 32 + 1) % 2 ^ 32 ∧
    blockBytes (inc32 c) =
      (blockBytes c).take 12 ++ be32 (beNat ((blockBytes c).drop 12) + 1) ∧
    (c.extractLsb' 0 32 = 0xffffffff →
      (inc32 c).extractLsb' 0 32 = 0 ∧ (inc32 c).extractLsb' 32 96 = c.extractLsb' 32 96)

/-- R105 and R104: an empty string folds nothing, a string of at most one block folds that block
padded with zeros, and a string that begins with whole blocks folds them first. -/
def Obligations.GhashFoldsBlocksInOrder : Prop :=
  ∀ (h a : Block),
    ghash h a [] = a ∧
    (∀ bs : List Byte, 1 ≤ bs.length → bs.length ≤ 16 →
      ghash h a bs = gfMul (a ^^^ blockOf (bs ++ zeros (16 - bs.length))) h) ∧
    (∀ bs cs : List Byte, bs.length % 16 = 0 → ghash h a (bs ++ cs) = ghash h (ghash h a bs) cs)

/-- The length block of R110 and R15: the two bit counts modulo 2^64, big-endian, AAD first. -/
def Obligations.LengthBlockHoldsBitCounts : Prop :=
  ∀ a c : Word64,
    blockBytes (lengthBlock a c) = be64 (8 * a.toNat) ++ be64 (8 * c.toNat) ∧
    beNat ((blockBytes (lengthBlock a c)).take 8) = 8 * a.toNat % 2 ^ 64 ∧
    beNat ((blockBytes (lengthBlock a c)).drop 8) = 8 * c.toNat % 2 ^ 64

/-- R16: a block is 16 bytes, byte `B[k]` is bits `8*(15-k)+7 .. 8*(15-k)` of `int(B)`, and the
block of those bytes is the block. -/
def Obligations.BlocksAreBigEndianBytes : Prop :=
  ∀ b : Block,
    (blockBytes b).length = 16 ∧
    beNat (blockBytes b) = b.toNat ∧
    blockOf (blockBytes b) = b ∧
    ∀ k, k < 16 → (blockBytes b)[k]? = some (b.extractLsb' (8 * (15 - k)) 8)

/-! ## Secrecy (10_state.md R41) -/

/-- R41 and R38: two states that agree on the registers that are not secret (R20: PHASE, TLEN,
REM_LEN, AAD_LEN, PROC_LEN, BUF_LEN) and on nothing else, not even the key, answer a command with
the same status and the same number of output bytes, but for DEC_FINAL's verdict on the tag; and
the only commands that emit a byte are ENC_UPDATE, ENC_FINAL and DEC_FINAL. What the bytes are, the
statements `EncUpdateRunsThePipeline`, `EncFinalEmitsCiphertextAndTag` and
`DecFinalVerifiesThenReleases` say. -/
def Obligations.StatusAndOutputLengthAreIndependentOfSecrets : Prop :=
  ∀ (i : Instr) (s u : State),
    s.ctx.phase = u.ctx.phase → s.ctx.tlen = u.ctx.tlen → s.ctx.remLen = u.ctx.remLen →
    s.ctx.aadLen = u.ctx.aadLen → s.ctx.procLen = u.ctx.procLen →
    s.ctx.bufLen = u.ctx.bufLen →
    ∃ c d e f out out', exec i s = .next (s.answered c e out) ∧
      exec i u = .next (u.answered d f out') ∧
      ((∀ n, i ≠ .decFinal n) ∨ (e = .authFailed ↔ f = .authFailed) →
        statusWord e c = statusWord f d ∧ out.length = out'.length) ∧
      ((∀ chunk, i ≠ .encUpdate chunk) → (∀ n, i ≠ .encFinal n) → (∀ n, i ≠ .decFinal n) →
        out = [] ∧ out' = [])
end

