-- ==== Sys2Proof/Laws/Bytes.lean ====
section
/-! SUPPORT. Lengths, big-endian round trips and pieces of byte strings, and the shape of BUF under
its operations. -/

namespace Sys2Proof

@[simp] theorem zeros_length (n : Nat) : (zeros n).length = n := List.length_replicate

@[simp] theorem zeros_zero : zeros 0 = [] := rfl

@[simp] theorem beBytes_length (n v : Nat) : (beBytes n v).length = n := by
  induction n <;> simp_all [beBytes]

@[simp] theorem be32_length (v : Nat) : (be32 v).length = 4 := beBytes_length 4 v

@[simp] theorem be64_length (v : Nat) : (be64 v).length = 8 := beBytes_length 8 v

@[simp] theorem blockBytes_length (b : Block) : (blockBytes b).length = 16 :=
  beBytes_length 16 b.toNat

@[simp] theorem xorBytes_length (a b : List Byte) :
    (xorBytes a b).length = min a.length b.length := by
  simp [xorBytes]

/-- Folding digits from an accumulator scales it by the digits' weight. -/
theorem beNat_foldl (bs : List Byte) (acc : Nat) :
    bs.foldl (fun acc b => 256 * acc + b.toNat) acc = acc * 256 ^ bs.length + beNat bs := by
  induction bs generalizing acc with
  | nil => simp [beNat]
  | cons b bs ih =>
    simp only [beNat, List.foldl_cons, List.length_cons]
    rw [ih, ih (256 * 0 + b.toNat)]
    ring

@[simp] theorem beNat_nil : beNat [] = 0 := rfl

theorem beNat_cons (b : Byte) (bs : List Byte) :
    beNat (b :: bs) = b.toNat * 256 ^ bs.length + beNat bs := by
  simp only [beNat, List.foldl_cons]
  rw [beNat_foldl]
  simp [beNat]

theorem beNat_append (as bs : List Byte) :
    beNat (as ++ bs) = beNat as * 256 ^ bs.length + beNat bs := by
  rw [beNat, List.foldl_append, beNat_foldl]
  rfl

theorem beNat_lt (bs : List Byte) : beNat bs < 256 ^ bs.length := by
  induction bs with
  | nil => simp
  | cons b bs ih =>
    rw [beNat_cons, List.length_cons, pow_succ]
    have hb := b.isLt
    nlinarith [Nat.one_le_two_pow (n := bs.length), pow_pos (show 0 < 256 by norm_num) bs.length]

/-- Reading back a big-endian encoding gives the number modulo its width. -/
theorem beNat_beBytes (n v : Nat) : beNat (beBytes n v) = v % 256 ^ n := by
  induction n with
  | zero => simp [beBytes, Nat.mod_one]
  | succ n ih =>
    rw [beBytes, beNat_cons, ih, beBytes_length, BitVec.toNat_ofNat, Nat.shiftRight_eq_div_pow,
      pow_mul, pow_succ 256 n, Nat.mod_mul, show (2 : Nat) ^ 8 = 256 by norm_num, add_comm, mul_comm]

/-- A big-endian encoding is the encoding of the number modulo its width. -/
theorem beBytes_mod (n v : Nat) : beBytes n (v % 256 ^ n) = beBytes n v := by
  suffices h : ∀ k ≤ n, beBytes k (v % 256 ^ n) = beBytes k v from h n le_rfl
  intro k hk
  induction k with
  | zero => rfl
  | succ k ih =>
    rw [beBytes, beBytes, ih (by omega)]
    congr 1
    apply BitVec.eq_of_toNat_eq
    rw [BitVec.toNat_ofNat, BitVec.toNat_ofNat, Nat.shiftRight_eq_div_pow,
      Nat.shiftRight_eq_div_pow, pow_mul]
    obtain ⟨d, rfl⟩ := Nat.exists_eq_add_of_le hk
    norm_num
    rw [show 256 ^ (k + 1 + d) = 256 ^ k * (256 * 256 ^ d) by ring, Nat.mod_mul_right_div_self,
      Nat.mod_mul_right_mod]

/-- Encoding the number of a byte string gives the string back. -/
theorem beBytes_beNat (bs : List Byte) : beBytes bs.length (beNat bs) = bs := by
  induction bs with
  | nil => rfl
  | cons b bs ih =>
    have hlt := beNat_lt bs
    rw [List.length_cons, beBytes, beNat_cons]
    congr 1
    · apply BitVec.eq_of_toNat_eq
      rw [BitVec.toNat_ofNat, Nat.shiftRight_eq_div_pow, pow_mul]
      norm_num
      rw [add_comm, Nat.add_mul_div_right _ _ (pow_pos (by norm_num) _),
        Nat.div_eq_of_lt hlt, zero_add, Nat.mod_eq_of_lt b.isLt]
    · rw [← beBytes_mod, Nat.mul_add_mod_self_right, Nat.mod_eq_of_lt hlt, ih]

end Sys2Proof

namespace Sys2Proof

/-! ## Blocks and their bytes -/

theorem beNat_blockBytes (b : Block) : beNat (blockBytes b) = b.toNat := by
  rw [blockBytes, beNat_beBytes, Nat.mod_eq_of_lt (by simpa using b.isLt)]

theorem beNat_zeros (n : Nat) : beNat (zeros n) = 0 := by
  induction n with
  | zero => rfl
  | succ n ih => rw [show zeros (n + 1) = 0 :: zeros n from rfl, beNat_cons, ih]; simp

/-- Zero padding up to 16 bytes does not change the block. -/
theorem blockOf_padded (bs : List Byte) : blockOf (bs ++ zeros (16 - bs.length)) = blockOf bs := by
  simp only [blockOf, List.length_append, zeros_length]
  rw [show 16 - (bs.length + (16 - bs.length)) = 0 by omega]
  simp

/-- The bytes of a block made from at most 16 bytes are those bytes, zero-padded (R16). -/
theorem blockBytes_blockOf (bs : List Byte) (h : bs.length ≤ 16) :
    blockBytes (blockOf bs) = bs ++ zeros (16 - bs.length) := by
  have hlen : (bs ++ zeros (16 - bs.length)).length = 16 := by simp; omega
  have hlt := beNat_lt (bs ++ zeros (16 - bs.length))
  rw [hlen] at hlt
  rw [blockBytes, blockOf, BitVec.toNat_ofNat, Nat.mod_eq_of_lt (by simpa using hlt)]
  have hback := beBytes_beNat (bs ++ zeros (16 - bs.length))
  rwa [hlen] at hback

theorem blockOf_blockBytes (b : Block) : blockOf (blockBytes b) = b := by
  rw [blockOf, blockBytes_length]
  simp [beNat_blockBytes]

theorem blockOf_nil : blockOf [] = 0 := by decide +kernel

/-! ## Pieces -/

@[simp] theorem chunks_length (n : Nat) (bs : List Byte) : (chunks n bs).length = n := by
  induction n generalizing bs <;> simp_all [chunks]

/-- The pieces of a string that begins with whole blocks. -/
theorem chunks_append (m n : Nat) (as bs : List Byte) (h : as.length = 16 * m) :
    chunks (m + n) (as ++ bs) = chunks m as ++ chunks n bs := by
  induction m generalizing as with
  | zero =>
    obtain rfl : as = [] := List.length_eq_zero_iff.mp (by omega)
    simp [chunks]
  | succ m ih =>
    rw [show m + 1 + n = (m + n) + 1 by omega, chunks, chunks,
      List.take_append_of_le_length (by omega), List.drop_append_of_le_length (by omega),
      ih _ (by rw [List.length_drop]; omega), List.cons_append]

/-- Only the first `16 n` bytes matter to `n` pieces. -/
theorem chunks_take (n : Nat) (bs : List Byte) : chunks n (bs.take (16 * n)) = chunks n bs := by
  induction n generalizing bs with
  | zero => rfl
  | succ n ih =>
    rw [chunks, chunks, List.take_take, List.drop_take, min_eq_left (by omega),
      show 16 * (n + 1) - 16 = 16 * n by omega, ih]

theorem pad16_length (bs : List Byte) : (pad16 bs).length = 16 * ((bs.length + 15) / 16) := by
  simp only [pad16, List.length_append, zeros_length]
  omega

theorem pad16_append (as bs : List Byte) (h : as.length % 16 = 0) :
    pad16 (as ++ bs) = as ++ pad16 bs := by
  simp [pad16, List.length_append, Nat.add_mod, h]

end Sys2Proof

namespace Sys2Proof.Machine

/-! ## BUF -/

@[simp] theorem bufSlice_length (buf : List Byte) (o m : Nat) : (bufSlice buf o m).length = m := by
  simp only [bufSlice, List.length_append, List.length_take, List.length_drop, zeros_length]
  omega

/-- Where BUF holds all the bytes asked for, they are those of the list. -/
theorem bufSlice_of_le (buf : List Byte) (o m : Nat) (h : o + m ≤ buf.length) :
    bufSlice buf o m = (buf.drop o).take m := by
  rw [bufSlice, show m - (buf.length - o) = 0 by omega]
  simp

/-- A write at or before the end of the list keeps the list without gaps. -/
theorem bufWrite_length (buf : List Byte) (o : Nat) (c : List Byte) :
    (bufWrite buf o c).length = max buf.length (o + c.length) := by
  simp only [bufWrite, List.length_append, bufSlice_length, List.length_drop]
  omega

/-- Appending at the end of the valid bytes (R170). -/
theorem bufWrite_at_end (buf c : List Byte) : bufWrite buf buf.length c = buf ++ c := by
  rw [bufWrite, bufSlice_of_le _ _ _ (by omega)]
  simp

end Sys2Proof.Machine
end

