-- ==== Sys2Proof/Laws/State.lean ====
section
/-! SUPPORT. What each update of the state leaves in each field, one lemma per field. -/

namespace Sys2Proof.Machine

/-! ## `State.finish`, `State.answered` -/

section
variable (s : State) (r : Reply) (c : Context) (e : Err) (out : List Byte)

@[simp] theorem finish_ctx : (s.finish r).ctx = r.ctx := rfl
@[simp] theorem finish_rx : (s.finish r).rx = s.rx := rfl
@[simp] theorem finish_resync : (s.finish r).resync = s.resync := rfl
@[simp] theorem finish_portKey : (s.finish r).portKey = s.portKey := rfl
@[simp] theorem finish_hostIn : (s.finish r).hostIn = s.hostIn := rfl
@[simp] theorem finish_respOut :
    (s.finish r).respOut = s.respOut ++ [⟨statusWord r.err r.ctx, r.out⟩] := rfl
@[simp] theorem finish_cipher : (s.finish r).cipher = s.cipher := rfl

@[simp] theorem answered_ctx : (s.answered c e out).ctx = c := rfl
@[simp] theorem answered_rx : (s.answered c e out).rx = s.rx := rfl
@[simp] theorem answered_resync : (s.answered c e out).resync = s.resync := rfl
@[simp] theorem answered_portKey : (s.answered c e out).portKey = s.portKey := rfl
@[simp] theorem answered_hostIn : (s.answered c e out).hostIn = s.hostIn := rfl
@[simp] theorem answered_respOut :
    (s.answered c e out).respOut = s.respOut ++ [⟨statusWord e c, out⟩] := rfl
@[simp] theorem answered_cipher : (s.answered c e out).cipher = s.cipher := rfl

/-- A meaning's last act is the answer its reply describes. -/
theorem finish_eq_answered : s.finish r = s.answered r.ctx r.err r.out := rfl

end

/-! ## `Context.stepBlock` -/

section
variable (c : Context) (x : Block) (m : Nat)

@[simp] theorem stepBlock_phase : (c.stepBlock x m).phase = c.phase := rfl
@[simp] theorem stepBlock_tlen : (c.stepBlock x m).tlen = c.tlen := rfl
@[simp] theorem stepBlock_h : (c.stepBlock x m).h = c.h := rfl
@[simp] theorem stepBlock_j0 : (c.stepBlock x m).j0 = c.j0 := rfl
@[simp] theorem stepBlock_cb : (c.stepBlock x m).cb = inc32 c.cb := rfl
@[simp] theorem stepBlock_y : (c.stepBlock x m).y = fold c.h c.y x := rfl
@[simp] theorem stepBlock_rem : (c.stepBlock x m).rem = c.rem := rfl
@[simp] theorem stepBlock_remLen : (c.stepBlock x m).remLen = c.remLen := rfl
@[simp] theorem stepBlock_aadLen : (c.stepBlock x m).aadLen = c.aadLen := rfl
@[simp] theorem stepBlock_procLen :
    (c.stepBlock x m).procLen = c.procLen + BitVec.ofNat 64 m := rfl
@[simp] theorem stepBlock_buf : (c.stepBlock x m).buf = c.buf := rfl
@[simp] theorem stepBlock_bufLen : (c.stepBlock x m).bufLen = c.bufLen := rfl

end

/-! ## `Context.foldLengths` -/

section
variable (c : Context)

@[simp] theorem foldLengths_phase : c.foldLengths.phase = c.phase := rfl
@[simp] theorem foldLengths_tlen : c.foldLengths.tlen = c.tlen := rfl
@[simp] theorem foldLengths_h : c.foldLengths.h = c.h := rfl
@[simp] theorem foldLengths_j0 : c.foldLengths.j0 = c.j0 := rfl
@[simp] theorem foldLengths_cb : c.foldLengths.cb = c.cb := rfl
@[simp] theorem foldLengths_y :
    c.foldLengths.y = fold c.h c.y (lengthBlock c.aadLen c.procLen) := rfl
@[simp] theorem foldLengths_rem : c.foldLengths.rem = c.rem := rfl
@[simp] theorem foldLengths_remLen : c.foldLengths.remLen = c.remLen := rfl
@[simp] theorem foldLengths_aadLen : c.foldLengths.aadLen = c.aadLen := rfl
@[simp] theorem foldLengths_procLen : c.foldLengths.procLen = c.procLen := rfl
@[simp] theorem foldLengths_buf : c.foldLengths.buf = c.buf := rfl
@[simp] theorem foldLengths_bufLen : c.foldLengths.bufLen = c.bufLen := rfl

end

/-! ## `Context.setRem`, `Context.clearBuf` -/

section
variable (c : Context) (t : List Byte)

@[simp] theorem setRem_phase : (c.setRem t).phase = c.phase := rfl
@[simp] theorem setRem_tlen : (c.setRem t).tlen = c.tlen := rfl
@[simp] theorem setRem_h : (c.setRem t).h = c.h := rfl
@[simp] theorem setRem_j0 : (c.setRem t).j0 = c.j0 := rfl
@[simp] theorem setRem_cb : (c.setRem t).cb = c.cb := rfl
@[simp] theorem setRem_y : (c.setRem t).y = c.y := rfl
@[simp] theorem setRem_rem : (c.setRem t).rem = blockOf t := rfl
@[simp] theorem setRem_remLen : (c.setRem t).remLen = BitVec.ofNat 4 t.length := rfl
@[simp] theorem setRem_aadLen : (c.setRem t).aadLen = c.aadLen := rfl
@[simp] theorem setRem_procLen : (c.setRem t).procLen = c.procLen := rfl
@[simp] theorem setRem_buf : (c.setRem t).buf = c.buf := rfl
@[simp] theorem setRem_bufLen : (c.setRem t).bufLen = c.bufLen := rfl

@[simp] theorem clearBuf_phase : c.clearBuf.phase = c.phase := rfl
@[simp] theorem clearBuf_tlen : c.clearBuf.tlen = c.tlen := rfl
@[simp] theorem clearBuf_h : c.clearBuf.h = c.h := rfl
@[simp] theorem clearBuf_j0 : c.clearBuf.j0 = c.j0 := rfl
@[simp] theorem clearBuf_cb : c.clearBuf.cb = c.cb := rfl
@[simp] theorem clearBuf_y : c.clearBuf.y = c.y := rfl
@[simp] theorem clearBuf_rem : c.clearBuf.rem = c.rem := rfl
@[simp] theorem clearBuf_remLen : c.clearBuf.remLen = c.remLen := rfl
@[simp] theorem clearBuf_aadLen : c.clearBuf.aadLen = c.aadLen := rfl
@[simp] theorem clearBuf_procLen : c.clearBuf.procLen = c.procLen := rfl
@[simp] theorem clearBuf_buf : c.clearBuf.buf = [] := rfl
@[simp] theorem clearBuf_bufLen : c.clearBuf.bufLen = 0 := rfl

end

/-! ## `hardwareReset` -/

section
variable (s : State)

@[simp] theorem hardwareReset_ctx : (hardwareReset s).ctx = Context.reset := rfl
@[simp] theorem hardwareReset_rx : (hardwareReset s).rx = [] := rfl
@[simp] theorem hardwareReset_resync : (hardwareReset s).resync =
    (s.resync || endsInsideFrame (s.rx.length + 1) s.rx) := rfl
@[simp] theorem hardwareReset_respOut : (hardwareReset s).respOut = s.respOut := rfl
@[simp] theorem hardwareReset_portKey : (hardwareReset s).portKey = s.portKey := rfl
@[simp] theorem hardwareReset_hostIn : (hardwareReset s).hostIn = s.hostIn.tail := rfl

end

end Sys2Proof.Machine
end

