-- ==== Sys2Proof/Laws/Ops.lean ====
section
/-! SUPPORT. Once for each shared operation, everything it can do. -/

namespace Sys2Proof.Machine

/-- The reply of each command, by name. -/
def replyOf (i : Instr) (s : State) : Reply :=
  match i with
  | .nop => reply s.ctx []
  | .initEnc tl iv aad => initReply s.cipher .encrypting tl iv aad s.ctx
  | .initDec tl iv aad => initReply s.cipher .decrypting tl iv aad s.ctx
  | .encUpdate chunk => encUpdateReply s.cipher chunk s.ctx
  | .decUpdate chunk => decUpdateReply Config.ptBufBytes chunk s.ctx
  | .encFinal outcap => encFinalReply s.cipher outcap s.ctx
  | .decFinal outcap => decFinalReply s.cipher outcap s.ctx
  | .zeroize => reply Context.reset []

/-- Every command answers its reply: one response, and no fault or refusal. -/
theorem exec_eq (i : Instr) (s : State) :
    exec i s = .next (s.answered (replyOf i s).ctx (replyOf i s).err (replyOf i s).out) := by
  cases i <;> rfl

@[simp] theorem reply_ctx (c : Context) (out : List Byte) : (reply c out).ctx = c := rfl
@[simp] theorem reply_err (c : Context) (out : List Byte) : (reply c out).err = .ok := rfl
@[simp] theorem reply_out (c : Context) (out : List Byte) : (reply c out).out = out := rfl
@[simp] theorem replyErr_ctx (e : Err) (c : Context) : (replyErr e c).ctx = c := rfl
@[simp] theorem replyErr_err (e : Err) (c : Context) : (replyErr e c).err = e := rfl
@[simp] theorem replyErr_out (e : Err) (c : Context) : (replyErr e c).out = [] := rfl

/-- INIT: one of two refusals that change nothing, or the new context (R130, R131). -/
theorem initReply_cases (E : Block → Block) (dir : Phase) (tl : BitVec 5) (iv aad : List Byte)
    (c : Context) :
    (c.phase ≠ .idle ∧ initReply E dir tl iv aad c = replyErr .sequence c) ∨
    (c.phase = .idle ∧ (tagLegal tl = false ∨ iv = []) ∧
      initReply E dir tl iv aad c = replyErr .invalidParam c) ∨
    (c.phase = .idle ∧ tagLegal tl = true ∧ iv ≠ [] ∧
      initReply E dir tl iv aad c = reply (initContext E dir tl iv aad) []) := by
  unfold initReply
  by_cases hp : c.phase = .idle <;> by_cases ht : tagLegal tl = true <;>
    by_cases hi : iv = [] <;> simp [hp, ht, hi]

/-- The encrypt walk writes only CB, Y and PROC_LEN (R151). -/
theorem encryptBlocks_frame (E : Block → Block) (ps : List Block) (c : Context) :
    (encryptBlocks E c ps).1 =
      { c with
        cb := (encryptBlocks E c ps).1.cb
        y := (encryptBlocks E c ps).1.y
        procLen := (encryptBlocks E c ps).1.procLen } := by
  induction ps generalizing c with
  | nil => rfl
  | cons p ps ih =>
    simp only [encryptBlocks]
    rw [ih (c.stepBlock (p ^^^ c.keystream E) 16)]
    rfl

/-- CB steps once a block, and PROC_LEN grows by 16 (R151, R27). -/
theorem encryptBlocks_counters (E : Block → Block) (ps : List Block) (c : Context) :
    (encryptBlocks E c ps).1.cb = inc32^[ps.length] c.cb ∧
    (encryptBlocks E c ps).1.procLen = c.procLen + BitVec.ofNat 64 (16 * ps.length) ∧
    (encryptBlocks E c ps).2.length = 16 * ps.length := by
  induction ps generalizing c with
  | nil => simp [encryptBlocks]
  | cons p ps ih =>
    obtain ⟨hcb, hlen, hout⟩ := ih (c.stepBlock (p ^^^ c.keystream E) 16)
    simp only [encryptBlocks, stepBlock_cb, stepBlock_procLen] at *
    refine ⟨by rw [hcb, List.length_cons, Function.iterate_succ_apply], ?_, ?_⟩
    · rw [hlen, List.length_cons, BitVec.add_assoc, ← BitVec.ofNat_add]
      congr 2
      omega
    · rw [List.length_append, blockBytes_length, hout, List.length_cons]
      omega

/-- The decrypt walk writes only CB, Y, PROC_LEN and BUF (R173). -/
theorem decryptWalk_frame (E : Block → Block) (n k o : Nat) (c : Context) :
    decryptWalk E n k o c =
      { c with
        cb := (decryptWalk E n k o c).cb
        y := (decryptWalk E n k o c).y
        procLen := (decryptWalk E n k o c).procLen
        buf := (decryptWalk E n k o c).buf } := by
  induction k generalizing o c with
  | zero => rfl
  | succ k ih =>
    simp only [decryptWalk]
    rw [ih (o + 16) (decryptBlock E c o (min 16 (n - o)))]
    rfl

/-- ENC_UPDATE: refused, or OK (R150). -/
theorem encUpdateReply_cases (E : Block → Block) (chunk : List Byte) (c : Context) :
    (c.phase ≠ .encrypting ∧ encUpdateReply E chunk c = replyErr .sequence c) ∨
    (c.phase = .encrypting ∧ ∃ d n, d = c.remBytes ++ chunk ∧ n = d.length / 16 ∧
      encUpdateReply E chunk c =
        reply ((encryptBlocks E c ((chunks n d).map blockOf)).1.setRem (d.drop (16 * n)))
          (encryptBlocks E c ((chunks n d).map blockOf)).2) := by
  unfold encUpdateReply
  by_cases hp : c.phase = .encrypting <;> simp [hp]

/-- DEC_UPDATE: refused, overflow, or OK (R170, R171). -/
theorem decUpdateReply_cases (cap : Nat) (chunk : List Byte) (c : Context) :
    (c.phase ≠ .decrypting ∧ decUpdateReply cap chunk c = replyErr .sequence c) ∨
    (c.phase = .decrypting ∧ cap < c.bufLen.toNat + chunk.length ∧
      decUpdateReply cap chunk c =
        replyErr .outOfMemory { Context.reset with phase := .failed }) ∨
    (c.phase = .decrypting ∧ c.bufLen.toNat + chunk.length ≤ cap ∧
      decUpdateReply cap chunk c =
        reply { c with
          buf := bufWrite c.buf c.bufLen.toNat chunk
          bufLen := c.bufLen + BitVec.ofNat 64 chunk.length } []) := by
  unfold decUpdateReply failOom
  by_cases hp : c.phase = .decrypting <;>
    by_cases hc : cap < c.bufLen.toNat + chunk.length <;> simp [hp, hc]
  omega

/-- ENC_FINAL: refused, no room, or OK in DONE (R152). -/
theorem encFinalReply_cases (E : Block → Block) (outcap : Word64) (c : Context) :
    (c.phase ≠ .encrypting ∧ encFinalReply E outcap c = replyErr .sequence c) ∨
    (c.phase = .encrypting ∧ outcap.toNat < c.remLen.toNat + c.tlen.toNat ∧
      encFinalReply E outcap c = replyErr .bufferTooSmall c) ∨
    (c.phase = .encrypting ∧ c.remLen.toNat + c.tlen.toNat ≤ outcap.toNat ∧
      ∃ p, p = (if c.remLen.toNat = 0 then (c, []) else encryptPartial E c) ∧
        encFinalReply E outcap c =
          reply { p.1.foldLengths with phase := .done } (p.2 ++ p.1.foldLengths.tag E)) := by
  unfold encFinalReply
  by_cases hp : c.phase = .encrypting <;>
    by_cases hc : outcap.toNat < c.remLen.toNat + c.tlen.toNat <;> simp [hp, hc]
  omega

/-- DEC_FINAL: refused, too short, no room, or verified and then released or failed (R172). -/
theorem decFinalReply_cases (E : Block → Block) (outcap : Word64) (c : Context) :
    (c.phase ≠ .decrypting ∧ decFinalReply E outcap c = replyErr .sequence c) ∨
    (c.phase = .decrypting ∧ c.bufLen.toNat < c.tlen.toNat ∧
      decFinalReply E outcap c = replyErr .authFailed { c.clearBuf with phase := .done }) ∨
    (c.phase = .decrypting ∧ c.tlen.toNat ≤ c.bufLen.toNat ∧
      outcap.toNat < c.bufLen.toNat - c.tlen.toNat ∧
      decFinalReply E outcap c = replyErr .bufferTooSmall c) ∨
    (c.phase = .decrypting ∧ c.tlen.toNat ≤ c.bufLen.toNat ∧
      ∃ n w, n = c.bufLen.toNat - c.tlen.toNat ∧ n ≤ outcap.toNat ∧
        w = (decryptWalk E n ((n + 15) / 16) 0 c).foldLengths ∧
        decFinalReply E outcap c =
          (if constantTimeEqual (w.tag E) (bufSlice w.buf n w.tlen.toNat) = true then
            reply { w.clearBuf with phase := .done } (bufSlice w.buf 0 n)
          else replyErr .authFailed { w.clearBuf with phase := .done })) := by
  unfold decFinalReply
  by_cases hp : c.phase = .decrypting
  · by_cases hs : c.bufLen.toNat < c.tlen.toNat
    · simp [hp, hs]
    · by_cases hc : outcap.toNat < c.bufLen.toNat - c.tlen.toNat
      · refine .inr (.inr (.inl ⟨hp, by omega, hc, ?_⟩))
        simp [hp, hs, hc]
      · refine .inr (.inr (.inr ⟨hp, by omega, _, _, rfl, by omega, rfl, ?_⟩))
        simp [hp, hs, hc]
  · simp [hp]

end Sys2Proof.Machine
end

