-- ==== Sys2Proof/Laws/PerInstr.lean ====
section
/-! SUPPORT. Facts about every command as syntax, one lemma per constructor. -/

namespace Sys2Proof.Laws.FrameLength

/-- The number of argument words of a command (R72). -/
def argCount : Instr → Nat
  | .nop => 0
  | .initEnc _ _ _ => 2
  | .initDec _ _ _ => 2
  | .encUpdate _ => 1
  | .decUpdate _ => 1
  | .encFinal _ => 1
  | .decFinal _ => 1
  | .zeroize => 0

/-- The number of payload bytes of a command (R72). -/
def payloadCount : Instr → Nat
  | .nop => 0
  | .initEnc _ iv aad => iv.length + aad.length
  | .initDec _ iv aad => iv.length + aad.length
  | .encUpdate chunk => chunk.length
  | .decUpdate chunk => chunk.length
  | .encFinal _ => 0
  | .decFinal _ => 0
  | .zeroize => 0

/-- A frame is 4 bytes, 8 bytes an argument word and the payload (R70). -/
def Statement (i : Instr) : Prop := (encode i).length = 4 + 8 * argCount i + payloadCount i

theorem nop : Statement .nop := rfl

theorem initEnc (tl : BitVec 5) (iv aad : List Byte) : Statement (.initEnc tl iv aad) := by
  simp only [Statement, encode, makeFrame, argCount, payloadCount, List.flatMap_cons,
    List.flatMap_nil, List.length_append, be32_length, be64_length, List.length_nil]
  omega

theorem initDec (tl : BitVec 5) (iv aad : List Byte) : Statement (.initDec tl iv aad) := by
  simp only [Statement, encode, makeFrame, argCount, payloadCount, List.flatMap_cons,
    List.flatMap_nil, List.length_append, be32_length, be64_length, List.length_nil]
  omega

theorem encUpdate (chunk : List Byte) : Statement (.encUpdate chunk) := by
  simp only [Statement, encode, makeFrame, argCount, payloadCount, List.flatMap_cons,
    List.flatMap_nil, List.length_append, be32_length, be64_length, List.length_nil]
  omega

theorem decUpdate (chunk : List Byte) : Statement (.decUpdate chunk) := by
  simp only [Statement, encode, makeFrame, argCount, payloadCount, List.flatMap_cons,
    List.flatMap_nil, List.length_append, be32_length, be64_length, List.length_nil]
  omega

theorem encFinal (outcap : Word64) : Statement (.encFinal outcap) := by
  simp [Statement, encode, makeFrame, argCount, payloadCount]

theorem decFinal (outcap : Word64) : Statement (.decFinal outcap) := by
  simp [Statement, encode, makeFrame, argCount, payloadCount]

theorem zeroize : Statement .zeroize := rfl

end Sys2Proof.Laws.FrameLength
end

