-- ==== Sys2Proof/Laws/Step.lean ====
section
/-! SUPPORT. What one step can do. -/

namespace Sys2Proof.Machine

/-- The next state of a host move that is taken. -/
theorem takeMove_cases {s t : State} (h : takeMove s = .next t) :
    (s.hostIn = [] ∧ t = s) ∨
    (∃ bs rest, s.hostIn = .bytes bs :: rest ∧
      t = { s with rx := if s.resync then s.rx else s.rx ++ bs, hostIn := rest }) ∨
    (∃ rest, s.hostIn = .boundary :: rest ∧ t = { s with resync := false, hostIn := rest }) ∨
    (∃ rest, s.hostIn = .reset :: rest ∧ t = hardwareReset s) ∨
    (∃ k rest, s.hostIn = .key k :: rest ∧ (s.ctx.inMessage = false ∨ k = s.portKey) ∧
      t = { s with portKey := k, hostIn := rest }) := by
  unfold takeMove at h
  split at h
  · rename_i hh
    injection h with h
    exact .inl ⟨hh, h.symm⟩
  · rename_i bs rest hh
    injection h with h
    exact .inr (.inl ⟨bs, rest, hh, h.symm⟩)
  · rename_i rest hh
    injection h with h
    exact .inr (.inr (.inl ⟨rest, hh, h.symm⟩))
  · rename_i rest hh
    injection h with h
    exact .inr (.inr (.inr (.inl ⟨rest, hh, h.symm⟩)))
  · rename_i k rest hh
    split at h
    · cases h
    · rename_i hk
      injection h with h
      refine .inr (.inr (.inr (.inr ⟨k, rest, hh, ?_, h.symm⟩)))
      cases hm : s.ctx.inMessage
      · exact .inl rfl
      · exact .inr (by simpa [hm] using hk)

/-- A step that answers a next state is a hardware reset, a command, an illegal frame's answer or a
host move. -/
theorem step_cases {s t : State} (h : step s = .next t) :
    (s.resetPending = true ∧ t = hardwareReset s) ∨
    (∃ i rest, s.resetPending = false ∧ parseFrame s.rx = .command i rest ∧
      exec i { s with rx := rest } = .next t) ∨
    (∃ why rest, s.resetPending = false ∧ parseFrame s.rx = .illegal why rest ∧
      t = illegalCommand { s with rx := rest }) ∨
    (s.resetPending = false ∧ parseFrame s.rx = .incomplete ∧ takeMove s = .next t) := by
  unfold step at h
  split at h
  · rename_i hr
    injection h with h
    exact .inl ⟨hr, h.symm⟩
  · rename_i hr
    have hr : s.resetPending = false := by simpa using hr
    split at h
    · rename_i i rest hp
      exact .inr (.inl ⟨i, rest, hr, hp, h⟩)
    · rename_i why rest hp
      injection h with h
      exact .inr (.inr (.inl ⟨why, rest, hr, hp, h.symm⟩))
    · rename_i hp
      exact .inr (.inr (.inr ⟨hr, hp, h⟩))

/-- A pending reset is the head of the host's moves. -/
theorem resetPending_iff (s : State) :
    s.resetPending = true ↔ ∃ rest, s.hostIn = .reset :: rest := by
  unfold State.resetPending
  split <;> simp_all

end Sys2Proof.Machine
end

