-- ==== Sys2Proof/Machine/Assembler.lean ====
section
/-! DEFINITION. The textual form of commands and the pseudo-commands (30_encoding.md R87, R88):
from a line of text to the bytes the host sends. -/

namespace Sys2Proof.Machine

/-- One line of R87 or R88; numbers are as written, before they are fitted to their fields. -/
inductive AsmLine where
  | nop
  | initEnc (tlen : Nat) (iv aad : List Byte)
  | initDec (tlen : Nat) (iv aad : List Byte)
  | encUpdate (chunk : List Byte)
  | decUpdate (chunk : List Byte)
  | encFinal (outcap : Nat)
  | decFinal (outcap : Nat)
  | zeroize
  /-- `.word`: one bare command word. -/
  | word (w : Nat)
  | status
  | teardown
  | encrypt (tlen : Nat) (iv aad pt : List Byte)
  | decrypt (tlen : Nat) (iv aad ct : List Byte)
deriving DecidableEq, Repr

/-- OUTCAP of the pseudo-commands (R88). -/
def maxOutcap : Word64 := BitVec.ofNat 64 18446744073709551615

/-- The commands a line stands for (R87, R88); none when a number does not fit its field. `.word`
stands for no command. -/
def AsmLine.commands : AsmLine → Option (List Instr)
  | .nop => some [.nop]
  | .initEnc t iv aad => if t ≤ 31 then some [.initEnc (BitVec.ofNat 5 t) iv aad] else none
  | .initDec t iv aad => if t ≤ 31 then some [.initDec (BitVec.ofNat 5 t) iv aad] else none
  | .encUpdate chunk => some [.encUpdate chunk]
  | .decUpdate chunk => some [.decUpdate chunk]
  | .encFinal n => if n < 2 ^ 64 then some [.encFinal (BitVec.ofNat 64 n)] else none
  | .decFinal n => if n < 2 ^ 64 then some [.decFinal (BitVec.ofNat 64 n)] else none
  | .zeroize => some [.zeroize]
  | .word _ => some []
  | .status => some [.nop]
  | .teardown => some [.zeroize]
  | .encrypt t iv aad pt =>
    if t ≤ 31 then some [.initEnc (BitVec.ofNat 5 t) iv aad, .encUpdate pt, .encFinal maxOutcap]
    else none
  | .decrypt t iv aad ct =>
    if t ≤ 31 then some [.initDec (BitVec.ofNat 5 t) iv aad, .decUpdate ct, .decFinal maxOutcap]
    else none

/-- The bytes a line emits (R87). -/
def AsmLine.assemble (l : AsmLine) : Option (List Byte) :=
  match l with
  | .word w => if w < 2 ^ 32 then some (be32 w) else none
  | l => l.commands.map (fun is => is.flatMap encode)

/-! ## Text -/

/-- The pieces of a text between separators. -/
def splitAtChar (sep : Char) : List Char → List (List Char)
  | [] => [[]]
  | ch :: cs =>
    match splitAtChar sep cs with
    | [] => [[ch]]
    | w :: ws => if ch = sep then [] :: w :: ws else (ch :: w) :: ws

/-- The words of a line with its comment taken off (R87). -/
def lineWords (cs : List Char) : List (List Char) :=
  (splitAtChar ' ' (cs.takeWhile (fun ch => ch != ';'))).filter (fun w => !w.isEmpty)

/-- A decimal digit. -/
def decDigit (ch : Char) : Option Nat :=
  if 48 ≤ ch.toNat ∧ ch.toNat ≤ 57 then some (ch.toNat - 48) else none

/-- A hexadecimal digit in either case. -/
def hexDigit (ch : Char) : Option Nat :=
  if 97 ≤ ch.toNat ∧ ch.toNat ≤ 102 then some (ch.toNat - 87)
  else if 65 ≤ ch.toNat ∧ ch.toNat ≤ 70 then some (ch.toNat - 55)
  else decDigit ch

/-- A number in the base given, from its digits. -/
def readNat (base : Nat) (digit : Char → Option Nat) (cs : List Char) : Option Nat :=
  if cs.isEmpty then none
  else cs.foldl (fun acc ch => acc.bind (fun a => (digit ch).map (fun d => base * a + d))) (some 0)

/-- Pairs of hexadecimal digits as bytes. -/
def hexPairs : List Char → Option (List Byte)
  | [] => some []
  | [_] => none
  | a :: b :: cs =>
    match hexDigit a, hexDigit b, hexPairs cs with
    | some x, some y, some bs => some (BitVec.ofNat 8 (16 * x + y) :: bs)
    | _, _, _ => none

/-- `<hex>` of R87: `""` is the empty string. -/
def readHex (cs : List Char) : Option (List Byte) :=
  if cs = ['"', '"'] then some [] else if cs.isEmpty then none else hexPairs cs

/-- The value of a word `key=value`. -/
def keyed (key : String) (w : List Char) : Option (List Char) :=
  let k := key.toList ++ ['=']
  if k.isPrefixOf w then some (w.drop k.length) else none

/-- A word that must end in a comma, without it. -/
def beforeComma (w : List Char) : Option (List Char) :=
  if w.getLast? = some ',' then some w.dropLast else none

/-- `tlen=<dec>,`. -/
def readTlen (w : List Char) : Option Nat :=
  (beforeComma w).bind (fun v => (keyed "tlen" v).bind (readNat 10 decDigit))

/-- `key=<hex>`, followed by a comma unless it is the last word. -/
def readBytes (key : String) (last : Bool) (w : List Char) : Option (List Byte) :=
  (if last then some w else beforeComma w).bind (fun v => (keyed key v).bind readHex)

/-- `outcap=<dec>`. -/
def readOutcap (w : List Char) : Option Nat := (keyed "outcap" w).bind (readNat 10 decDigit)

/-- The three words `tlen=t, iv=I, aad=A`. -/
def readInit (last : Bool) (t iv aad : List Char) : Option (Nat × List Byte × List Byte) :=
  match readTlen t, readBytes "iv" false iv, readBytes "aad" last aad with
  | some n, some i, some a => some (n, i, a)
  | _, _, _ => none

/-- A line of R87 or R88 from its words. -/
def parseWords (ws : List (List Char)) : Option AsmLine :=
  match ws with
  | [m] =>
    if m = "NOP".toList then some .nop
    else if m = "ZEROIZE".toList then some .zeroize
    else if m = "STATUS".toList then some .status
    else if m = "TEARDOWN".toList then some .teardown
    else none
  | [m, a] =>
    if m = "ENC_UPDATE".toList then (readHex a).map .encUpdate
    else if m = "DEC_UPDATE".toList then (readHex a).map .decUpdate
    else if m = "ENC_FINAL".toList then (readOutcap a).map .encFinal
    else if m = "DEC_FINAL".toList then (readOutcap a).map .decFinal
    else if m = ".word".toList ∧ a.length = 8 then (readNat 16 hexDigit a).map .word
    else none
  | [m, t, iv, aad] =>
    if m = "INIT_ENC".toList then (readInit true t iv aad).map (fun p => .initEnc p.1 p.2.1 p.2.2)
    else if m = "INIT_DEC".toList then
      (readInit true t iv aad).map (fun p => .initDec p.1 p.2.1 p.2.2)
    else none
  | [m, t, iv, aad, d] =>
    if m = "ENCRYPT".toList then
      match readInit false t iv aad, readBytes "pt" true d with
      | some p, some pt => some (.encrypt p.1 p.2.1 p.2.2 pt)
      | _, _ => none
    else if m = "DECRYPT".toList then
      match readInit false t iv aad, readBytes "ct" true d with
      | some p, some ct => some (.decrypt p.1 p.2.1 p.2.2 ct)
      | _, _ => none
    else none
  | _ => none

/-- The bytes one line of text emits; an empty or comment line emits nothing (R87). -/
def assembleLine (cs : List Char) : Option (List Byte) :=
  let ws := lineWords cs
  if ws.isEmpty then some [] else (parseWords ws).bind AsmLine.assemble

/-- The bytes a program text emits, one command a line (R87). -/
def assembleText (text : String) : Option (List Byte) :=
  (splitAtChar '\n' text.toList).foldr
    (fun line acc =>
      match assembleLine line, acc with
      | some a, some b => some (a ++ b)
      | _, _ => none) (some [])

end Sys2Proof.Machine
end

