-- ==== Sys2Proof/Tests/Slice0.lean ====
section
/-! SUPPORT. The model's own tests. Expected results are taken from the spec: worked encodings of
30_encoding.md R89, examples of 41_init.md to 43_decrypt.md, and the vectors and programs of
95_test_vectors.md; each test names its source. Witnesses of the statements' hypotheses follow. -/

-- Theorems of this file are elaborated one after another, so that their kernel evaluations do not each
-- hold a thread under a memory limit.
set_option Elab.async false

namespace Sys2Proof.Machine.Tests

/-! ## WellFormed refuses, and the decoder reads words written out from R71 to R73 -/

theorem test_wf_initEnc_iv : (Instr.initEnc 16 (zeros (2 ^ 64)) []).wf = false := by
  simp only [Instr.wf, fitsArg, zeros_length, Nat.lt_irrefl, decide_false, Bool.false_and]

theorem test_wf_initEnc_aad : (Instr.initEnc 16 [0] (zeros (2 ^ 64))).wf = false := by
  simp only [Instr.wf, fitsArg, zeros_length, Nat.lt_irrefl, decide_false, Bool.and_false]

theorem test_wf_initDec_iv : (Instr.initDec 16 (zeros (2 ^ 64)) []).wf = false := by
  simp only [Instr.wf, fitsArg, zeros_length, Nat.lt_irrefl, decide_false, Bool.false_and]

theorem test_wf_initDec_aad : (Instr.initDec 16 [0] (zeros (2 ^ 64))).wf = false := by
  simp only [Instr.wf, fitsArg, zeros_length, Nat.lt_irrefl, decide_false, Bool.and_false]

theorem test_wf_encUpdate : (Instr.encUpdate (zeros (2 ^ 64))).wf = false := by
  simp only [Instr.wf, fitsArg, zeros_length, Nat.lt_irrefl, decide_false]

theorem test_wf_decUpdate : (Instr.decUpdate (zeros (2 ^ 64))).wf = false := by
  simp only [Instr.wf, fitsArg, zeros_length, Nat.lt_irrefl, decide_false]

/-- 95 §2.11: the frame `00000000`. -/
theorem test_decode_nop : parseFrame [0, 0, 0, 0] = .command .nop [] := by decide +kernel

/-- R89: INIT_ENC with TL = 16 in bits 12..8, IVLEN 12, AADLEN 0. -/
theorem test_decode_initEnc :
    parseFrame ([0, 0, 0x10, 1, 0, 0, 0, 0, 0, 0, 0, 12, 0, 0, 0, 0, 0, 0, 0, 0] ++ zeros 12) =
      .command (.initEnc 16 (zeros 12) []) [] := by decide +kernel

/-- 95 §3.4: `INIT_DEC tlen=16, iv=IV0, aad=00`. -/
theorem test_decode_initDec :
    parseFrame (beBytes 33 0x00001002000000000000000c000000000000000100000000000000000000000000) =
      .command (.initDec 16 (zeros 12) [0]) [] := by decide +kernel

/-- 95 §3.1: `ENC_UPDATE d9313225f88406`. -/
theorem test_decode_encUpdate :
    parseFrame (beBytes 19 0x000000030000000000000007d9313225f88406) =
      .command (.encUpdate [0xd9, 0x31, 0x32, 0x25, 0xf8, 0x84, 0x06]) [] := by decide +kernel

/-- 95 §2.9: the frame `00000004000000000000000100`, and a next frame's first byte. -/
theorem test_decode_decUpdate :
    parseFrame (beBytes 13 0x00000004000000000000000100 ++ [0xee]) =
      .command (.decUpdate [0]) [0xee] := by decide +kernel

/-- R89: `ENC_FINAL outcap=16`. -/
theorem test_decode_encFinal :
    parseFrame (beBytes 12 0x000000050000000000000010) = .command (.encFinal 16) [] := by
  decide +kernel

/-- 95 §3.2: `DEC_FINAL outcap=60`. -/
theorem test_decode_decFinal :
    parseFrame (beBytes 12 0x00000006000000000000003c) = .command (.decFinal 60) [] := by
  decide +kernel

/-- R89: `ZEROIZE`. -/
theorem test_decode_zeroize : parseFrame [0, 0, 0, 7] = .command .zeroize [] := by decide +kernel

/-- 95 §2.7 and §2.11: illegal words, whose arguments and payload are consumed. -/
theorem test_decode_illegal :
    [beBytes 13 0x00000103000000000000000100, beBytes 13 0x00002003000000000000000100,
      [0xff, 0xff, 0xff, 0xff], [0, 0, 0, 8], [0, 0, 1, 7],
      beBytes 32 0x00002001000000000000000c0000000000000000cafebabefacedbaddecaf888].map parseFrame =
    [.illegal .tagLengthOutsideInit [], .illegal .reservedBits [], .illegal .reservedBits [],
      .illegal .reservedOpcode [], .illegal .tagLengthOutsideInit [],
      .illegal .reservedBits []] := by decide +kernel

/-- The table's rows: each match value is its row's instruction, TL 0 and operand words of zeros. -/
theorem test_decodeTableWord :
    (List.range 9).map (decodeTableWord 32) =
      [some .nop, some (.initEnc 0 [] []), some (.initDec 0 [] []), some (.encUpdate []),
        some (.decUpdate []), some (.encFinal 0), some (.decFinal 0), some .zeroize, none] := by
  decide +kernel

/-! ## The datapath -/

/-- 95 §2.1, H • H under K1. -/
theorem test_gfMul : gfMul 0xb83b533708bf535d0aa6e52980d53b78 0xb83b533708bf535d0aa6e52980d53b78 =
    0x8a6ff5aca561c0d865805055eb728397 := by decide +kernel

/-- 95 §2.1, all ones squared, in the carry-less form. -/
theorem test_gfMulCarryless :
    gfMulCarryless 0xffffffffffffffffffffffffffffffff 0xffffffffffffffffffffffffffffffff =
      0xf402aaaaaaaaaaaaaaaaaaaaaaaaaaaa := by decide +kernel

/-- 95 §2.3: the wrap. -/
theorem test_inc32_wraps : inc32 0xffffffffffffffffffffffffffffffff =
    0xffffffffffffffffffffffff00000000 := by decide +kernel

/-- 95 §2.4: a 13-byte IV, the first past the fast path. -/
theorem test_deriveJ0 : deriveJ0 0xb83b533708bf535d0aa6e52980d53b78
    [0, 1, 2, 3, 4, 5, 6, 7, 8, 9, 10, 11, 12] = 0x42498adf23dbaf696054780de78db7a9 := by
  decide +kernel

/-- 95 §2.5, last row: bit counts modulo 2^64. -/
theorem test_lengthBlock : lengthBlock 2305843009213693953 18446744073709551615 =
    0x0000000000000008fffffffffffffff8 := by decide +kernel

/-! ## The commands, under the inputs of 95's NIST test case 4 -/

/-- `E` = AES-128 under K1 on the blocks of test cases 3 and 4: H and E(J0) from 95 §2.2, and the
keystream as the XOR of the plaintext and ciphertext of TC3. -/
def cipherK1 (b : Block) : Block :=
  if b = 0 then 0xb83b533708bf535d0aa6e52980d53b78
  else if b = 0xcafebabefacedbaddecaf88800000001 then 0x3247184b3c4f69a44dbcd22887bbb418
  else if b = 0xcafebabefacedbaddecaf88800000002 then
    0xd9313225f88406e5a55909c5aff5269a ^^^ 0x42831ec2217774244b7221b784d0d49c
  else if b = 0xcafebabefacedbaddecaf88800000003 then
    0x86a7a9531534f7da2e4c303d8a318a72 ^^^ 0xe3aa212f2c02a4e035c17e2329aca12e
  else if b = 0xcafebabefacedbaddecaf88800000004 then
    0x1c3c0c95956809532fcf0e2449a6b525 ^^^ 0x21d514b25466931c7d8f6a5aac84aa05
  else if b = 0xcafebabefacedbaddecaf88800000005 then
    0xb16aedf5aa0de657ba637b391aafd255 ^^^ 0x1ba30b396a0aac973d58e091473f5985
  else 0

/-- IV1 of 95. -/
def iv1 : List Byte := beBytes 12 0xcafebabefacedbaddecaf888

/-- The context of 95 §2.6 after INIT with IV1 and A20. -/
def tc4 (p : Phase) : Context :=
  { Context.reset with
    phase := p, tlen := 16, h := 0xb83b533708bf535d0aa6e52980d53b78
    j0 := 0xcafebabefacedbaddecaf88800000001, cb := 0xcafebabefacedbaddecaf88800000001
    y := 0xcd47221ccef0554ee4bb044c88150352, aadLen := 20 }

/-- P60 of 95. -/
def p60 : List Byte := beBytes 60
  0xd9313225f88406e5a55909c5aff5269a86a7a9531534f7da2e4c303d8a318a721c3c0c95956809532fcf0e2449a6b525b16aedf5aa0de657ba637b39

/-- D76 of 95 §2.9. -/
def d76 : List Byte := beBytes 76
  0x42831ec2217774244b7221b784d0d49ce3aa212f2c02a4e035c17e2329aca12e21d514b25466931c7d8f6a5aac84aa051ba30b396a0aac973d58e0915bc94fbc3221a5db94fae95ae7121a47

/-- The context of 95 §2.8 after `ENC_UPDATE P60`. -/
def tc4Rem : Context := (encUpdateReply cipherK1 p60 (tc4 .encrypting)).ctx

/-- The registers that both ends of TC4 leave (95 §2.8, §2.10). -/
def tc4End : Context :=
  { tc4 .done with
    cb := 0xcafebabefacedbaddecaf88800000005, y := 0x698e57f70e6ecc7fd9463b7260a9ae5f
    procLen := 60 }

/-- 95 §2.6. -/
theorem test_initEnc :
    initReply cipherK1 .encrypting 16 iv1 (beBytes 20 0xfeedfacedeadbeeffeedfacedeadbeefabaddad2)
      Context.reset = reply (tc4 .encrypting) [] := by decide +kernel

/-- 95 §2.6: TL = 5 is INVALID_PARAM (90 C1), and SEQUENCE comes before it. -/
theorem test_initEnc_refused :
    (initReply cipherK1 .encrypting 5 iv1 [] Context.reset).err = .invalidParam ∧
    (initReply cipherK1 .encrypting 5 iv1 [] (tc4 .encrypting)).err = .sequence := by
  decide +kernel

/-- R133's example: STATUS 0x00000C20. -/
theorem test_initDec :
    let r := initReply cipherK1 .decrypting 12 iv1 [] Context.reset
    statusWord r.err r.ctx = 0x00000c20 ∧ r.ctx.j0 = 0xcafebabefacedbaddecaf88800000001 ∧
      r.ctx.y = 0 := by decide +kernel

/-- 95 §2.6: an empty IV is INVALID_PARAM. -/
theorem test_initDec_empty_iv :
    initReply cipherK1 .decrypting 16 [] [1] Context.reset =
      replyErr .invalidParam Context.reset := by decide +kernel

/-- 95 §2.8: `ENC_UPDATE P60` emits 48 bytes and leaves 12 in REM. -/
theorem test_encUpdate :
    (encUpdateReply cipherK1 p60 (tc4 .encrypting)).out = d76.take 48 ∧
    tc4Rem.remBytes = p60.drop 48 ∧ tc4Rem.cb = 0xcafebabefacedbaddecaf88800000004 ∧
    tc4Rem.procLen = 48 ∧ tc4Rem.phase = .encrypting := by decide +kernel

/-- 95 §2.7, rows 2 and 4: one byte only fills REM, and the byte that completes a block emits it. -/
theorem test_encUpdate_remainder :
    (encUpdateReply cipherK1 (p60.take 1) (tc4 .encrypting)).out = [] ∧
    (encUpdateReply cipherK1 ((p60.drop 15).take 1) ((tc4 .encrypting).setRem (p60.take 15))).out
      = d76.take 16 := by decide +kernel

/-- 95 §2.8, row 3. -/
theorem test_encFinal :
    encFinalReply cipherK1 28 tc4Rem = reply tc4End (d76.drop 48) := by decide +kernel

/-- 95 §2.8, row 2: one byte short. -/
theorem test_encFinal_short : encFinalReply cipherK1 27 tc4Rem = replyErr .bufferTooSmall tc4Rem := by
  decide +kernel

/-- 95 §2.9, row 4: a chunk that fills BUF exactly, PT_BUF_BYTES = 80. -/
theorem test_decUpdate_fills :
    (decUpdateReply 80 [0, 0, 0, 0] { tc4 .decrypting with buf := d76, bufLen := 76 }).ctx =
      { tc4 .decrypting with buf := d76 ++ [0, 0, 0, 0], bufLen := 80 } := by decide +kernel

/-- 95 §2.9, row 5: one byte more, STATUS 0x00000042. -/
theorem test_decUpdate_overflow :
    let r := decUpdateReply 80 [0] { tc4 .decrypting with buf := d76 ++ zeros 4, bufLen := 80 }
    statusWord r.err r.ctx = 0x00000042 ∧ r.ctx = { Context.reset with phase := .failed } := by
  decide +kernel

/-- 95 §2.10, row 3: P60 is released. -/
theorem test_decFinal :
    decFinalReply cipherK1 60 { tc4 .decrypting with buf := d76, bufLen := 76 } =
      reply tc4End p60 := by decide +kernel

/-- 95 §1.4: the last tag bit flipped, STATUS 0x00001034 and nothing emitted. -/
theorem test_decFinal_tampered :
    let r := decFinalReply cipherK1 60
      { tc4 .decrypting with buf := d76.dropLast ++ [0x46], bufLen := 76 }
    statusWord r.err r.ctx = 0x00001034 ∧ r.out = [] ∧ r.ctx.buf = [] := by decide +kernel

/-- R135's example: NOP in DECRYPTING, STATUS 0x00001020. -/
theorem test_nop (s : State) (h : s.ctx = tc4 .decrypting) :
    exec .nop s = .next { s with respOut := s.respOut ++ [⟨0x00001020, []⟩] } := by
  rw [exec_eq, State.answered]
  simp only [replyOf, reply_ctx, reply_err, reply_out, h]
  congr

/-- 95 §2.11: ZEROIZE after reset, as the step's first instruction. -/
theorem test_zeroize : step (State.reset.withFetchWord 32 7) =
    .next { State.reset with respOut := [⟨0x00000000, []⟩] } := by rfl

/-- 95 §2.11: the frame `00000008` is ILLEGAL_CMD. -/
theorem test_step_illegal : step (State.reset.withFetchWord 32 8) =
    .next { State.reset with respOut := [⟨0x00000007, []⟩] } := by rfl

/-- 95 §2.7: ENC_UPDATE in IDLE is SEQUENCE. -/
theorem test_step_sequence : step (State.reset.withFetchWord 32 3) =
    .next { State.reset with respOut := [⟨0x00000006, []⟩] } := by rfl

/-- 95 §3.2: the response frame of the SEQUENCE answer. -/
theorem test_response_bytes : Response.bytes ⟨0x00001026, []⟩ =
    beBytes 12 0x000010260000000000000000 := by decide +kernel

/-- R89 and R87: lines of text, `.word` among them. -/
theorem test_assembleText :
    assembleText "INIT_ENC   tlen=16, iv=000000000000000000000000, aad=\"\" ; R89\n.word 00000008\nENC_FINAL outcap=16\n"
      = some (beBytes 32 0x00001001000000000000000c0000000000000000000000000000000000000000 ++
        [0, 0, 0, 8] ++ beBytes 12 0x000000050000000000000010) := by decide +kernel

/-- R87: a tlen above 31 does not assemble. -/
theorem test_assembleText_tlen :
    assembleText "INIT_DEC tlen=32, iv=00, aad=\"\"" = none := by decide +kernel

/-! ## Witnesses of the statements' hypotheses -/

/-- An ENCRYPTING state with five bytes in REM. -/
def sEnc : State :=
  { State.reset with
    ctx := ({ Context.reset with phase := .encrypting, tlen := 16 }).setRem [1, 2, 3, 4, 5] }

/-- An ENCRYPTING state with an empty REM. -/
def sEnc0 : State :=
  { State.reset with ctx := { Context.reset with phase := .encrypting, tlen := 16 } }

/-- A DECRYPTING state with `buf` received. -/
def sDec (buf : List Byte) : State :=
  { State.reset with
    ctx := { Context.reset with
      phase := .decrypting, tlen := 16, buf := buf, bufLen := BitVec.ofNat 64 buf.length } }

theorem cap_ge : 16 ≤ Config.ptBufBytes := Nat.le_max_left 16 _

theorem sEnc_inv : sEnc.ctx.Inv := by
  refine ⟨by decide, by decide, by decide +kernel, by decide, by decide, by decide, by decide, ?_,
    by decide, by decide⟩
  exact le_trans (by decide) cap_ge

theorem sEnc0_inv : sEnc0.ctx.Inv := by
  refine ⟨by decide, by decide, by decide +kernel, by decide, by decide, by decide, by decide, ?_,
    by decide, by decide⟩
  exact le_trans (by decide) cap_ge

theorem sDec_inv (buf : List Byte) (h : buf.length ≤ 16) : (sDec buf).ctx.Inv := by
  have hl : (BitVec.ofNat 64 buf.length).toNat = buf.length := by
    rw [BitVec.toNat_ofNat, Nat.mod_eq_of_lt (by omega)]
  refine ⟨?_, ?_, ?_, ?_, ?_, ?_, ?_, ?_, ?_, ?_⟩
  · rintro (h | h) <;> simp [sDec] at h
  · intro _ _
    exact (by decide : tagLegal 16 = true)
  · exact blockOf_nil.symm
  · intro _
    exact ⟨rfl, rfl⟩
  · intro h
    simp [sDec] at h
  · intro _
    exact ⟨rfl, rfl⟩
  · rfl
  · show (BitVec.ofNat 64 buf.length).toNat ≤ _
    have := cap_ge
    omega
  · exact hl.symm
  · intro h
    simp [sDec] at h

theorem witness_EncodedCommandDecodesBack : (Instr.initEnc 31 [1] []).wf = true := by decide

theorem witness_DecodedFrameIsItsEncoding :
    parseFrame [0, 0, 0, 7, 9] = .command .zeroize [9] := by decide +kernel

/-- The illegal clause at its boundaries: OP = 0x08, RSV bit 13 alone, TL = 1 on OP 0x03. -/
theorem witness_IllegalWord_illegal :
    (opField 0x00000008).toNat = 8 ∧ nargs (opField 0x00000008) = 0 ∧
    (0x00002000 : Word32).extractLsb' 13 19 ≠ 0 ∧
    (0x00000103 : Word32).extractLsb' 8 5 ≠ 0 ∧ nargs (opField 0x00000103) = 1 ∧
    payloadLen (opField 0x00000103) 1 0 = 1 ∧
    { State.reset with rx := beBytes 13 0x00000103000000000000000100 }.resetPending = false ∧
    beBytes 13 0x00000103000000000000000100 =
      be32 (0x00000103 : Word32).toNat ++ ([(1 : Word64)].flatMap (fun a => be64 a.toNat) ++
        (([0] : List Byte) ++ [])) := by decide +kernel

/-- The legal clause at its boundaries: OP = 0x07, and TL = 31 on OP 0x01. -/
theorem witness_IllegalWord_legal :
    ¬ (8 ≤ ((0x00000007 : Word32).extractLsb' 0 8).toNat ∨
      (0x00000007 : Word32).extractLsb' 13 19 ≠ 0 ∨ (0x00000007 : Word32).extractLsb' 8 5 ≠ 0) ∧
    ((0x00001f01 : Word32).extractLsb' 0 8).toNat = 1 ∧
    (0x00001f01 : Word32).extractLsb' 13 19 = 0 ∧
    [0, 0, 0, 7] = be32 (0x00000007 : Word32).toNat ++
      (([] : List Word64).flatMap (fun a => be64 a.toNat) ++ (([] : List Byte) ++ [])) := by
  decide +kernel

theorem witness_UnfinishedFrameWaits :
    ([0, 0, 0] : List Byte) ++ [7] = be32 (0x00000007 : Word32).toNat ++
      (([] : List Word64).flatMap (fun a => be64 a.toNat) ++ []) ∧
    nargs (opField 0x00000007) = 0 ∧ payloadLen (opField 0x00000007) 0 0 = 0 ∧
    { State.reset with rx := [0, 0, 0], hostIn := [.bytes [7]] }.resync = false := by
  decide +kernel

theorem witness_StepRunsTheDecodedCommand :
    Instr.nop.wf = true ∧ { State.reset with rx := encode .nop ++ [1] }.resetPending = false ∧
      { State.reset with rx := encode .nop ++ [1] }.rx = encode .nop ++ [1] := by decide +kernel

theorem witness_FramesAreServedInOrder :
    (∀ i ∈ [Instr.nop, Instr.zeroize], i.wf = true) ∧
    { State.reset with rx := [0, 0, 0, 0, 0, 0, 0, 7, 5] }.resetPending = false ∧
    { State.reset with rx := [0, 0, 0, 0, 0, 0, 0, 7, 5] }.rx =
      [Instr.nop, Instr.zeroize].flatMap encode ++ [5] := by decide +kernel

/-- The frame of ENC_UPDATE with one byte, and the illegal frame `00000008` (R89). -/
def updateFrame : RawFrame := ⟨0x00000003, [1], [0x5a]⟩
def reservedFrame : RawFrame := ⟨0x00000008, [], []⟩

theorem rawFrames_whole : ∀ f ∈ [updateFrame, reservedFrame], f.Whole := by
  simp only [List.mem_cons, List.not_mem_nil, or_false, forall_eq_or_imp, forall_eq]
  exact ⟨⟨by decide, by decide⟩, ⟨by decide, by decide⟩⟩

/-- Both clauses of the reset in `ResetAndZeroizeLeaveResetValues`, and its byte after the reset: two
whole frames received, and two whole frames with a third cut one byte before its end. -/
theorem witness_Reset :
    let s : State := { State.reset with
      rx := [updateFrame, reservedFrame].flatMap RawFrame.bytes, hostIn := [.reset, .bytes [0]] }
    let u : State := { s with rx := s.rx ++ updateFrame.bytes.dropLast }
    (∀ f ∈ [updateFrame, reservedFrame], f.Whole) ∧ s.resync = false ∧
    s.hostIn = .reset :: .bytes [0] :: [] ∧ u.hostIn = .reset :: [.bytes [0]] ∧
    updateFrame.bytes = updateFrame.bytes.dropLast ++ [0x5a] ∧
    updateFrame.bytes.dropLast ≠ [] ∧
    u.rx = [updateFrame, reservedFrame].flatMap RawFrame.bytes ++ updateFrame.bytes.dropLast :=
  ⟨rawFrames_whole, rfl, rfl, rfl, by decide +kernel, by decide +kernel, rfl⟩

/-- A frame cut after three bytes, its rest sent in two moves; and a move while `resync` is true. -/
theorem witness_AbandonedFrame :
    let s : State := { State.reset with
      rx := reservedFrame.bytes ++ [0, 0, 0]
      hostIn := [.reset, .bytes [3, 0, 0, 0, 0], .bytes [0, 0, 0, 0], .boundary] }
    let u : State := { State.reset with resync := true, hostIn := [.bytes [7]] }
    let f : RawFrame := ⟨0x00000003, [0], []⟩
    f.Whole ∧ f.bytes = [0, 0, 0] ++ (3 :: zeros 8) ∧
    s.rx = [reservedFrame].flatMap RawFrame.bytes ++ [0, 0, 0] ∧
    s.hostIn = .reset :: ([[3, 0, 0, 0, 0], [0, 0, 0, 0]].map .bytes ++ [.boundary]) ∧
    u.resync = true ∧ u.rx = [] ∧ u.hostIn = .bytes [7] :: [] :=
  ⟨⟨by decide, by decide⟩, by decide +kernel, by simp, rfl, rfl, rfl, rfl⟩

theorem witness_KeyChanges :
    ({ State.reset with hostIn := [.key 1] }.ctx.phase = .idle ∧
      { State.reset with hostIn := [.key 1] }.rx = []) ∧
    ({ sEnc with hostIn := [.key 1] }.ctx.phase = .encrypting ∧
      { sEnc with hostIn := [.key 1] }.rx = [] ∧ 1 ≠ { sEnc with hostIn := [.key 1] }.portKey) := by
  decide +kernel

/-- A DECRYPTING state under a port whose `E(zeros(16))` is its H meets the whole invariant, and
its next step answers a next state. -/
theorem witness_StepKeepsTheInvariant :
    let s : State := { sDec [] with
      ctx := { (sDec []).ctx with h := Config.blockCipher 0 0 }, rx := encode .nop }
    s.Inv ∧ ∃ t, step s = .next t := by
  intro s
  have h := sDec_inv [] (by decide)
  refine ⟨⟨⟨?_, h.tlen_legal, h.rem_padded, h.rem_unused, ?_, h.nothing_folded, h.counter_upper,
    h.buf_fits, h.buf_valid, h.buf_unused⟩, fun _ => rfl, fun hr => ?_⟩, ?_⟩
  · rintro (hp | hp) <;> simp [s, sDec] at hp
  · intro hp
    simp [s, sDec] at hp
  · exact absurd hr (by simp [s, sDec, State.reset])
  · have hp : parseFrame s.rx = .command .nop [] := by
      rw [show s.rx = encode .nop from rfl]
      decide +kernel
    have hs : step s = exec .nop { s with rx := [] } := by
      unfold step
      rw [show s.resetPending = false from rfl, hp]
      rfl
    exact ⟨_, hs.trans (exec_eq _ _)⟩

theorem witness_HostDrivenRuns :
    ∃ t, step { sEnc0 with hostIn := sEnc0.hostIn ++ [.bytes [0, 0]] } = .next t := ⟨_, rfl⟩

theorem witness_WrongPhase :
    phaseLegal (.encUpdate []) State.reset.ctx.phase = false ∧
    phaseLegal (.encUpdate []) sEnc.ctx.phase = true := by decide

/-- Every error of `ErrorsHaveTheirEffects` is answered somewhere. -/
theorem witness_Errors :
    (replyOf (.encUpdate []) State.reset).err = .sequence ∧
    (replyOf (.initEnc 0 [1] []) State.reset).err = .invalidParam ∧
    (replyOf (.encFinal 20) sEnc).err = .bufferTooSmall ∧
    (replyOf (.decFinal 0) (sDec [])).err = .authFailed ∧
    (replyOf (.decUpdate (zeros (Config.ptBufBytes + 1))) (sDec [])).err = .outOfMemory := by
  refine ⟨by decide, by decide, by decide, by decide, ?_⟩
  have h : (replyOf (.decUpdate (zeros (Config.ptBufBytes + 1))) (sDec [])) = failOom := by
    simp only [replyOf, decUpdateReply, sDec, zeros_length]
    rw [if_neg (by simp), if_pos (by simp)]
  rw [h]
  rfl

/-- A step that is refused: the key changed while a message is in progress. -/
theorem witness_CommandsNeverStop :
    step { sEnc0 with hostIn := [.key 1] } = .refused .keyChangedInMessage := rfl

theorem witness_StatusWordLayout : (⟨0, [1, 2]⟩ : Response).out.length < 2 ^ 64 := by decide

theorem witness_NopReportsStatus :
    (0x00000100 : Word32).extractLsb' 0 8 = 0 ∧ (0x00000100 : Word32) ≠ 0 ∧
    { State.reset with rx := [0, 0, 1, 0] }.rx = be32 (0x00000100 : Word32).toNat ++ [] := by
  decide +kernel

/-- Both IV paths of the INITs. -/
theorem witness_Init :
    State.reset.ctx.phase = .idle ∧ (16 : BitVec 5).toNat ∈ [4, 8, 12, 13, 14, 15, 16] ∧
    ([0] : List Byte) ≠ [] ∧ ([0] : List Byte).length ≠ 12 ∧ iv1 ≠ [] ∧ iv1.length = 12 := by
  decide +kernel

/-- Each clause of `InitValidatesInOrder`, at TL = 5 and TL = 17 and an empty IV. -/
theorem witness_InitValidates :
    (Instr.initEnc 5 [1] []).wf = true ∧ (5 : BitVec 5).toNat ∉ [4, 8, 12, 13, 14, 15, 16] ∧
    (17 : BitVec 5).toNat ∉ [4, 8, 12, 13, 14, 15, 16] ∧
    (4 : BitVec 5).toNat ∈ [4, 8, 12, 13, 14, 15, 16] ∧ sEnc.ctx.phase ≠ .idle ∧
    { State.reset with rx := encode (.initDec 4 [] []) }.resetPending = false ∧
    { State.reset with rx := encode (.initDec 4 [] []) }.rx = encode (.initDec 4 [] []) ++ [] := by
  decide +kernel

/-- A chunk that leaves a remainder and one that completes a block exactly. -/
theorem witness_EncUpdate :
    sEnc.ctx.phase = .encrypting ∧
    ((blockBytes sEnc.ctx.rem).take sEnc.ctx.remLen.toNat ++ zeros 11).length / 16 = 1 ∧
    ((blockBytes sEnc.ctx.rem).take sEnc.ctx.remLen.toNat ++ zeros 10).length / 16 = 0 := by
  decide +kernel

theorem witness_EmptyUpdate :
    (sEnc.ctx.Inv ∧ sEnc.ctx.phase = .encrypting) ∧
    ((sDec []).ctx.Inv ∧ (sDec []).ctx.phase = .decrypting) :=
  ⟨⟨sEnc_inv, rfl⟩, ⟨sDec_inv [] (by decide), rfl⟩⟩

theorem witness_EncUpdateSplitsJoin : sEnc.ctx.phase = .encrypting := rfl

/-- Room exactly enough, with a partial block and without. -/
theorem witness_EncFinal :
    (sEnc.ctx.phase = .encrypting ∧ sEnc.ctx.remLen.toNat = 5 ∧
      sEnc.ctx.remLen.toNat + sEnc.ctx.tlen.toNat ≤ (21 : Word64).toNat) ∧
    (sEnc0.ctx.phase = .encrypting ∧ sEnc0.ctx.remLen.toNat = 0 ∧
      sEnc0.ctx.remLen.toNat + sEnc0.ctx.tlen.toNat ≤ (16 : Word64).toNat) ∧
    sEnc.ctx.Inv ∧ sEnc0.ctx.Inv :=
  ⟨by decide, by decide, sEnc_inv, sEnc0_inv⟩

/-- One byte short, in both directions. -/
theorem witness_FinalWithoutRoom :
    (20 : Word64).toNat < sEnc.ctx.remLen.toNat + sEnc.ctx.tlen.toNat ∧
    (sDec (zeros 17)).ctx.tlen.toNat ≤ (sDec (zeros 17)).ctx.bufLen.toNat ∧
    (0 : Word64).toNat < (sDec (zeros 17)).ctx.bufLen.toNat - (sDec (zeros 17)).ctx.tlen.toNat := by
  decide

theorem witness_DecUpdateAppends :
    (sDec []).ctx.phase = .decrypting ∧
    (sDec []).ctx.bufLen.toNat + (zeros 16).length ≤ Config.ptBufBytes :=
  ⟨rfl, cap_ge⟩

/-- A chunk of exactly one byte more than the whole of BUF. -/
theorem witness_DecUpdateOverflow :
    (sDec []).ctx.phase = .decrypting ∧
    Config.ptBufBytes < (sDec []).ctx.bufLen.toNat + (zeros (Config.ptBufBytes + 1)).length := by
  refine ⟨rfl, ?_⟩
  rw [zeros_length]
  omega

theorem witness_DecUpdateSplitsJoin :
    (sDec []).ctx.Inv ∧ (sDec []).ctx.phase = .decrypting ∧
    (sDec []).ctx.bufLen.toNat + (zeros 8).length + (zeros 8).length ≤ Config.ptBufBytes :=
  ⟨sDec_inv [] (by decide), rfl, cap_ge⟩

/-- The tag of the empty message in the state `sDec` (every register but the buffer zero). -/
def emptyTag : List Byte :=
  (blockBytes (Config.blockCipher 0 0 ^^^ fold 0 (ghash 0 0 []) (blockOf (be64 0 ++ be64 0)))).take 16

theorem emptyTag_length : emptyTag.length = 16 := by simp [emptyTag]

/-- Both clauses of `DecFinalVerifiesThenReleases`: the tag of the message, and another one. -/
theorem witness_DecFinal :
    ((sDec emptyTag).ctx.Inv ∧ (sDec emptyTag).ctx.buf = [] ++ emptyTag ∧
      emptyTag.length = (sDec emptyTag).ctx.tlen.toNat ∧
      (blockBytes ((sDec emptyTag).cipher (sDec emptyTag).ctx.j0 ^^^
        fold 0 (ghash 0 0 []) (blockOf (be64 (8 * 0) ++ be64 (8 * 0))))).take 16 = emptyTag) ∧
    ((sDec (emptyTag.map (· + 1))).ctx.Inv ∧
      (emptyTag.map (· + 1)).length = (sDec (emptyTag.map (· + 1))).ctx.tlen.toNat ∧
      emptyTag ≠ emptyTag.map (· + 1)) := by
  have hl := emptyTag_length
  refine ⟨⟨sDec_inv _ (by omega), rfl, hl, rfl⟩, sDec_inv _ (by simp [hl]), by simp [hl, sDec], ?_⟩
  intro h
  have h0 := congrArg (fun l => l[0]?) h
  simp only [List.getElem?_map] at h0
  rw [List.getElem?_eq_getElem (by omega)] at h0
  simp at h0

theorem witness_ShortDecryptInput :
    (sDec (zeros 15)).ctx.phase = .decrypting ∧
    (sDec (zeros 15)).ctx.bufLen.toNat < (sDec (zeros 15)).ctx.tlen.toNat := by decide

theorem witness_TagComparison : ([1, 2] : List Byte).length = ([1, 3] : List Byte).length := rfl

theorem witness_PlaintextOnlyAfterVerification :
    (sDec (zeros 16)).ctx.Inv ∧ (sDec (zeros 16)).ctx.phase = .decrypting :=
  ⟨sDec_inv _ (by simp), rfl⟩

theorem witness_EncryptedMessage :
    State.reset.ctx.phase = .idle ∧ tagLegal 16 = true ∧ ([0] : List Byte) ≠ [] ∧
    ([[1], [2, 3]] : List (List Byte)).flatten.length % 16 + (16 : BitVec 5).toNat ≤
      (19 : Word64).toNat := by decide

theorem witness_DecryptedMessage :
    tagLegal 4 = true ∧ ([[1, 2], zeros 4] : List (List Byte)).flatten = [1, 2] ++ zeros 4 ∧
    (zeros 4).length = (4 : BitVec 5).toNat ∧
    ([1, 2] : List Byte).length + (zeros 4).length ≤ Config.ptBufBytes ∧
    ([1, 2] : List Byte).length ≤ (2 : Word64).toNat :=
  ⟨by decide, by decide, by decide, le_trans (by decide) cap_ge, by decide⟩

theorem witness_DecryptUndoesEncrypt (t : State) :
    tagLegal 12 = true ∧ ([[1, 2, 3, 4]] : List (List Byte)).flatten.length % 16 +
      (12 : BitVec 5).toNat ≤ (16 : Word64).toNat ∧
    ([[1, 2, 3, 4]] : List (List Byte)).flatten.length + (12 : BitVec 5).toNat ≤
      Config.ptBufBytes ∧
    ([[1, 2, 3, 4]] : List (List Byte)).flatten.length ≤ (4 : Word64).toNat ∧
    [outputSince State.reset t].flatten = outputSince State.reset t :=
  ⟨by decide, by decide, cap_ge, by decide, by simp⟩

theorem witness_CounterStep : (0xffffffff : Block).extractLsb' 0 32 = 0xffffffff := by decide +kernel

/-- The shortest and the longest single block, and an aligned prefix. -/
theorem witness_Ghash :
    1 ≤ ([1] : List Byte).length ∧ ([1] : List Byte).length ≤ 16 ∧ 1 ≤ (zeros 16).length ∧
    (zeros 16).length ≤ 16 ∧ (zeros 32).length % 16 = 0 := by decide

theorem witness_StatusAndOutputLength :
    let u : State := { sEnc with portKey := 1, ctx := { sEnc.ctx with h := 1, y := 2, rem := 3 } }
    sEnc.ctx.phase = u.ctx.phase ∧ sEnc.ctx.tlen = u.ctx.tlen ∧ sEnc.ctx.remLen = u.ctx.remLen ∧
    sEnc.ctx.aadLen = u.ctx.aadLen ∧ sEnc.ctx.procLen = u.ctx.procLen ∧
    sEnc.ctx.bufLen = u.ctx.bufLen ∧ sEnc.ctx ≠ u.ctx := by decide +kernel

end Sys2Proof.Machine.Tests
end

section
/-! PROOFS (00_scope.md). A big-endian encoding splits into its halves and into its bytes (R16), which
gives the bytes of the length block (R110) and of every block. -/

namespace Sys2Proof

/-- The high `m` bytes of an encoding encode the number without its low `n` bytes. -/
theorem beBytes_add (m n v : Nat) :
    beBytes (m + n) v = beBytes m (v >>> (8 * n)) ++ beBytes n v := by
  induction m with
  | zero => simp [beBytes]
  | succ m ih =>
    rw [Nat.add_right_comm, beBytes, beBytes, ih, ← Nat.shiftRight_add, ← Nat.mul_add,
      Nat.add_comm n m, List.cons_append]

/-- Byte `k` of an encoding is what the `n - 1 - k` bytes after it leave of the number. -/
theorem getElem?_beBytes (n v k : Nat) (hk : k < n) :
    (beBytes n v)[k]? = some (BitVec.ofNat 8 (v >>> (8 * (n - 1 - k)))) := by
  induction n generalizing k with
  | zero => omega
  | succ n ih =>
    cases k with
    | zero => simp [beBytes]
    | succ k =>
      rw [beBytes, List.getElem?_cons_succ, ih k (by omega),
        show n + 1 - 1 - (k + 1) = n - 1 - k by omega]

/-- `be64` of a word product wraps as the word does (R15). -/
theorem be64_toNat_mul (x y : Word64) : be64 (x * y).toNat = be64 (x.toNat * y.toNat) := by
  rw [BitVec.toNat_mul]
  exact beBytes_mod 8 _

theorem beNat_be64 (v : Nat) : beNat (be64 v) = v % 2 ^ 64 := beNat_beBytes 8 v

/-- The bytes of a block made of two words are the bytes of the high word, then of the low one. -/
theorem blockBytes_append (hi lo : Word64) :
    blockBytes (hi ++ lo) = be64 hi.toNat ++ be64 lo.toNat := by
  have hsum : (hi ++ lo).toNat = 2 ^ 64 * hi.toNat + lo.toNat := by
    rw [BitVec.toNat_append, ← Nat.shiftLeft_add_eq_or_of_lt lo.isLt, Nat.shiftLeft_eq, Nat.mul_comm]
  have hhigh : (hi ++ lo).toNat >>> (8 * 8) = hi.toNat := by
    rw [hsum, Nat.shiftRight_eq_div_pow]
    omega
  have hlow : beBytes 8 (hi ++ lo).toNat = be64 lo.toNat := by
    rw [← beBytes_mod, hsum]
    congr 1
    omega
  rw [blockBytes, beBytes_add 8 8, hhigh, hlow, ← be64]

/-- Byte `B[k]` is bits `8*(15-k)+7 .. 8*(15-k)` of `int(B)` (R16). -/
theorem getElem?_blockBytes (b : Block) (k : Nat) (hk : k < 16) :
    (blockBytes b)[k]? = some (b.extractLsb' (8 * (15 - k)) 8) :=
  getElem?_beBytes 16 b.toNat k hk

end Sys2Proof

namespace Sys2Proof.Machine

/-- The bytes of the length block (R109, R110). -/
theorem blockBytes_lengthBlock (a c : Word64) :
    blockBytes (lengthBlock a c) = be64 (8 * a.toNat) ++ be64 (8 * c.toNat) := by
  rw [lengthBlock, blockBytes_append, be64_toNat_mul, be64_toNat_mul]
  rfl

/-- Settles O43: the length block's bytes split into its two encoded words, each read back modulo
2^64. -/
theorem lengthBlockHoldsBitCounts : Obligations.LengthBlockHoldsBitCounts := by
  intro a c
  have hbytes := blockBytes_lengthBlock a c
  refine ⟨hbytes, ?_, ?_⟩
  · rw [hbytes, List.take_left' (be64_length _), beNat_be64]
  · rw [hbytes, List.drop_left' (be64_length _), beNat_be64]

/-- Settles O44, from the round trips of a block and its bytes and the rule for byte `k`. -/
theorem blocksAreBigEndianBytes : Obligations.BlocksAreBigEndianBytes := fun b =>
  ⟨blockBytes_length b, beNat_blockBytes b, blockOf_blockBytes b, getElem?_blockBytes b⟩

end Sys2Proof.Machine
end

section
/-! PROOFS (10_state.md). What each command can do to the registers, said once as `Effect`; from it
the invariant of R39, the phase table of R22 and the writers of R35. Then BUF, the secrets, the key,
STATUS, and whole frames with the reset that drops them. -/

namespace Sys2Proof.Machine

/-! ## Counter, REM and capacity -/

/-- A counter step keeps the upper 96 bits (R106). -/
@[simp] theorem inc32_upper (b : Block) :
    (inc32 b).extractLsb' 32 96 = b.extractLsb' 32 96 :=
  BitVec.extractLsb'_append_eq_left

@[simp] theorem inc32_iterate_upper (k : Nat) (b : Block) :
    (inc32^[k] b).extractLsb' 32 96 = b.extractLsb' 32 96 := by
  induction k generalizing b with
  | zero => rfl
  | succ k ih => rw [Function.iterate_succ_apply, ih, inc32_upper]

/-- BUF_LEN can count every byte of BUF (R33). -/
theorem ptBufBytes_lt : Config.ptBufBytes < 2 ^ 64 :=
  max_lt (by decide) Config.ptBufRaw.isLt

/-- Where the capacity holds the chunk, BUF_LEN does not wrap (R33). -/
theorem toNat_bufLen_add {c : Context} {m : Nat} (hfit : c.bufLen.toNat + m ≤ Config.ptBufBytes) :
    (c.bufLen + BitVec.ofNat 64 m).toNat = c.bufLen.toNat + m := by
  have := ptBufBytes_lt
  rw [BitVec.toNat_add, BitVec.toNat_ofNat]
  omega

@[simp] theorem remBytes_length (c : Context) : c.remBytes.length = c.remLen.toNat := by
  have := c.remLen.isLt
  simp only [Context.remBytes, List.length_take, blockBytes_length]
  omega

/-- A remainder written to REM is what REM holds afterwards (R150). -/
theorem remBytes_of_rem_remLen {c : Context} {t : List Byte} (ht : t.length < 16)
    (hr : c.rem = blockOf t) (hl : c.remLen = BitVec.ofNat 4 t.length) : c.remBytes = t := by
  have hlen : (BitVec.ofNat 4 t.length).toNat = t.length := by
    rw [BitVec.toNat_ofNat]
    omega
  rw [Context.remBytes, hr, hl, hlen, blockBytes_blockOf t (by omega), List.take_left]

/-! ## What a command can do -/

/-- The command is the INIT of the direction, with its operands (R132, R133). -/
inductive IsInit : Instr → Phase → BitVec 5 → List Byte → List Byte → Prop
  | enc {tl iv aad} : IsInit (.initEnc tl iv aad) .encrypting tl iv aad
  | dec {tl iv aad} : IsInit (.initDec tl iv aad) .decrypting tl iv aad

/-- The effect of a command on the registers `c` and its answer, by the rows of R210 and R22. What
the block walks do to CB, Y and PROC_LEN is kept as far as R39 speaks of it. -/
inductive Effect (E : Block → Block) (c : Context) : Instr → Reply → Prop
  | nop : Effect E c .nop (reply c [])
  | zeroize : Effect E c .zeroize (reply Context.reset [])
  | sequence {i} (hp : phaseLegal i c.phase = false) : Effect E c i (replyErr .sequence c)
  | initRefused {i dir tl iv aad} (hi : IsInit i dir tl iv aad) (hp : c.phase = .idle) :
      Effect E c i (replyErr .invalidParam c)
  | init {i dir tl iv aad} (hi : IsInit i dir tl iv aad) (hp : c.phase = .idle)
      (ht : tagLegal tl = true) : Effect E c i (reply (initContext E dir tl iv aad) [])
  | encUpdate {chunk out} (n : Nat) (y : Block) (t : List Byte) (hp : c.phase = .encrypting)
      (ht : t.length < 16) :
      Effect E c (.encUpdate chunk) (reply
        { c with
          cb := inc32^[n] c.cb
          y := y
          procLen := c.procLen + BitVec.ofNat 64 (16 * n)
          rem := blockOf t
          remLen := BitVec.ofNat 4 t.length } out)
  | decUpdate {chunk} (hp : c.phase = .decrypting)
      (hfit : c.bufLen.toNat + chunk.length ≤ Config.ptBufBytes) :
      Effect E c (.decUpdate chunk) (reply
        { c with
          buf := bufWrite c.buf c.bufLen.toNat chunk
          bufLen := c.bufLen + BitVec.ofNat 64 chunk.length } [])
  | overflow {chunk} (hp : c.phase = .decrypting) :
      Effect E c (.decUpdate chunk)
        (replyErr .outOfMemory { Context.reset with phase := .failed })
  | encFinalNoRoom {outcap} (hp : c.phase = .encrypting) :
      Effect E c (.encFinal outcap) (replyErr .bufferTooSmall c)
  | encFinal {outcap out} (k : Nat) (y : Block) (m : Word64) (hp : c.phase = .encrypting) :
      Effect E c (.encFinal outcap) (reply
        { c with
          phase := .done
          cb := inc32^[k] c.cb
          y := y
          procLen := m
          rem := if c.remLen = 0 then c.rem else 0
          remLen := 0 } out)
  | decFinalNoRoom {outcap} (hp : c.phase = .decrypting) :
      Effect E c (.decFinal outcap) (replyErr .bufferTooSmall c)
  | decFinal {outcap e out} (k : Nat) (y : Block) (m : Word64) (hp : c.phase = .decrypting)
      (he : e = .ok ∨ e = .authFailed) :
      Effect E c (.decFinal outcap)
        ⟨{ c with
            phase := .done
            cb := inc32^[k] c.cb
            y := y
            procLen := m
            buf := []
            bufLen := 0 }, e, out⟩

section
variable (E : Block → Block) (c : Context)

theorem initReply_effect {i : Instr} {dir : Phase} {tl : BitVec 5} {iv aad : List Byte}
    (hi : IsInit i dir tl iv aad) : Effect E c i (initReply E dir tl iv aad c) := by
  obtain ⟨hp, hr⟩ | ⟨hp, -, hr⟩ | ⟨hp, ht, -, hr⟩ := initReply_cases E dir tl iv aad c <;> rw [hr]
  · exact .sequence (by cases hi <;> simpa [phaseLegal] using hp)
  · exact .initRefused hi hp
  · exact .init hi hp ht

/-- The registers after the encrypt walk: CB, Y and PROC_LEN are written, the rest stays (R151). -/
theorem encryptBlocks_registers (ps : List Block) :
    ∃ y, (encryptBlocks E c ps).1 =
      { c with
        cb := inc32^[ps.length] c.cb
        y := y
        procLen := c.procLen + BitVec.ofNat 64 (16 * ps.length) } := by
  obtain ⟨hcb, hlen, -⟩ := encryptBlocks_counters E ps c
  exact ⟨_, by rw [encryptBlocks_frame, hcb, hlen]⟩

theorem encUpdateReply_effect (chunk : List Byte) :
    Effect E c (.encUpdate chunk) (encUpdateReply E chunk c) := by
  obtain ⟨hp, hr⟩ | ⟨hp, d, n, -, hn, hr⟩ := encUpdateReply_cases E chunk c
  · rw [hr]
    exact .sequence (by simpa [phaseLegal] using hp)
  · obtain ⟨y, hw⟩ := encryptBlocks_registers E c ((chunks n d).map blockOf)
    have ht : (d.drop (16 * n)).length < 16 := by
      rw [List.length_drop]
      omega
    rw [hr, hw, List.length_map, chunks_length]
    exact .encUpdate n y _ hp ht

theorem decUpdateReply_effect (chunk : List Byte) :
    Effect E c (.decUpdate chunk) (decUpdateReply Config.ptBufBytes chunk c) := by
  obtain ⟨hp, hr⟩ | ⟨hp, -, hr⟩ | ⟨hp, hfit, hr⟩ :=
    decUpdateReply_cases Config.ptBufBytes chunk c <;> rw [hr]
  · exact .sequence (by simpa [phaseLegal] using hp)
  · exact .overflow hp
  · exact .decUpdate hp hfit

theorem encFinalReply_effect (outcap : Word64) :
    Effect E c (.encFinal outcap) (encFinalReply E outcap c) := by
  obtain ⟨hp, hr⟩ | ⟨hp, -, hr⟩ | ⟨hp, -, p, rfl, hr⟩ := encFinalReply_cases E outcap c <;> rw [hr]
  · exact .sequence (by simpa [phaseLegal] using hp)
  · exact .encFinalNoRoom hp
  · by_cases h0 : c.remLen = 0
    · have h := Effect.encFinal (E := E) (outcap := outcap) (out := c.foldLengths.tag E) 0
        c.foldLengths.y c.procLen hp
      simpa [h0, Context.foldLengths] using h
    · have hn : c.remLen.toNat ≠ 0 := fun h => h0 (BitVec.eq_of_toNat_eq h)
      have h := Effect.encFinal (E := E) (outcap := outcap)
        (out := (encryptPartial E c).2 ++ (encryptPartial E c).1.foldLengths.tag E) 1
        (encryptPartial E c).1.foldLengths.y (encryptPartial E c).1.procLen hp
      rw [if_neg h0] at h
      rw [if_neg hn]
      exact h

/-- The decrypt walk steps CB once a block (R173). -/
theorem decryptWalk_cb (n k o : Nat) : (decryptWalk E n k o c).cb = inc32^[k] c.cb := by
  induction k generalizing o c with
  | zero => rfl
  | succ k ih =>
    rw [decryptWalk, ih, Function.iterate_succ_apply]
    rfl

/-- The registers after the decrypt walk: CB, Y, PROC_LEN and BUF are written, the rest stays
(R173). -/
theorem decryptWalk_registers (n k o : Nat) :
    ∃ y m buf, decryptWalk E n k o c =
      { c with cb := inc32^[k] c.cb, y := y, procLen := m, buf := buf } :=
  ⟨_, _, _, by rw [decryptWalk_frame, decryptWalk_cb]⟩

theorem decFinalReply_effect (outcap : Word64) :
    Effect E c (.decFinal outcap) (decFinalReply E outcap c) := by
  obtain ⟨hp, hr⟩ | ⟨hp, -, hr⟩ | ⟨hp, -, -, hr⟩ | ⟨hp, -, n, w, -, -, hw, hr⟩ :=
    decFinalReply_cases E outcap c
  · rw [hr]
    exact .sequence (by simpa [phaseLegal] using hp)
  · rw [hr]
    exact .decFinal 0 c.y c.procLen hp (.inr rfl)
  · rw [hr]
    exact .decFinalNoRoom hp
  · obtain ⟨y, m, buf, hk⟩ := decryptWalk_registers E c n ((n + 15) / 16) 0
    rw [hr]
    rw [hk] at hw
    split <;> subst hw
    · exact .decFinal _ _ _ hp (.inl rfl)
    · exact .decFinal _ _ _ hp (.inr rfl)

end

/-- Every command has one of the effects. -/
theorem replyOf_effect (i : Instr) (s : State) : Effect s.cipher s.ctx i (replyOf i s) := by
  cases i with
  | nop => exact .nop
  | initEnc tl iv aad => exact initReply_effect _ _ .enc
  | initDec tl iv aad => exact initReply_effect _ _ .dec
  | encUpdate chunk => exact encUpdateReply_effect _ _ chunk
  | decUpdate chunk => exact decUpdateReply_effect _ _ chunk
  | encFinal outcap => exact encFinalReply_effect _ _ outcap
  | decFinal outcap => exact decFinalReply_effect _ _ outcap
  | zeroize => exact .zeroize

/-! ## The invariant of the registers -/

theorem inv_cleared {p : Phase} (hp : p = .idle ∨ p = .failed) :
    Context.Inv { Context.reset with phase := p } where
  cleared _ := rfl
  tlen_legal hi hf := absurd hp (by simp_all)
  rem_padded := blockOf_nil.symm
  rem_unused _ := ⟨rfl, rfl⟩
  whole_blocks _ := rfl
  nothing_folded _ := ⟨rfl, rfl⟩
  counter_upper := rfl
  buf_fits := Nat.zero_le _
  buf_valid := rfl
  buf_unused _ := ⟨rfl, rfl⟩

theorem inv_reset : Context.reset.Inv := inv_cleared (.inl rfl)

/-- INIT leaves CB = J0, nothing folded and nothing buffered (R131). -/
theorem inv_initContext (E : Block → Block) {i : Instr} {dir : Phase} {tl : BitVec 5}
    {iv aad : List Byte} (hi : IsInit i dir tl iv aad) (ht : tagLegal tl = true) :
    (initContext E dir tl iv aad).Inv where
  cleared h := by cases hi <;> simp [initContext] at h
  tlen_legal _ _ := ht
  rem_padded := blockOf_nil.symm
  rem_unused _ := ⟨rfl, rfl⟩
  whole_blocks _ := rfl
  nothing_folded _ := ⟨rfl, rfl⟩
  counter_upper := rfl
  buf_fits := Nat.zero_le _
  buf_valid := rfl
  buf_unused _ := ⟨rfl, rfl⟩

section
variable {c : Context} (h : c.Inv)
include h

/-- Whole blocks folded and a remainder shorter than a block keep the invariant (R150). -/
theorem Context.Inv.encUpdate (n : Nat) (y : Block) {t : List Byte}
    (hp : c.phase = .encrypting) (ht : t.length < 16) :
    Context.Inv
      { c with
        cb := inc32^[n] c.cb
        y := y
        procLen := c.procLen + BitVec.ofNat 64 (16 * n)
        rem := blockOf t
        remLen := BitVec.ofNat 4 t.length } where
  cleared hc := by simp [hp] at hc
  tlen_legal := h.tlen_legal
  rem_padded := congrArg blockOf (remBytes_of_rem_remLen ht rfl rfl).symm
  rem_unused hn := absurd hp hn
  whole_blocks _ := by
    have := h.whole_blocks hp
    simp only [BitVec.toNat_add, BitVec.toNat_ofNat]
    omega
  nothing_folded hd := by simp [hp] at hd
  counter_upper := (inc32_iterate_upper n c.cb).trans h.counter_upper
  buf_fits := h.buf_fits
  buf_valid := h.buf_valid
  buf_unused := h.buf_unused

/-- A chunk that fits keeps the invariant (R170). -/
theorem Context.Inv.decUpdate {chunk : List Byte} (hp : c.phase = .decrypting)
    (hfit : c.bufLen.toNat + chunk.length ≤ Config.ptBufBytes) :
    Context.Inv
      { c with
        buf := bufWrite c.buf c.bufLen.toNat chunk
        bufLen := c.bufLen + BitVec.ofNat 64 chunk.length } where
  cleared hc := by simp [hp] at hc
  tlen_legal := h.tlen_legal
  rem_padded := h.rem_padded
  rem_unused := h.rem_unused
  whole_blocks := h.whole_blocks
  nothing_folded := h.nothing_folded
  counter_upper := h.counter_upper
  buf_fits := (toNat_bufLen_add hfit).trans_le hfit
  buf_valid := by
    have := h.buf_valid
    have := toNat_bufLen_add hfit
    rw [bufWrite_length]
    dsimp only
    omega
  buf_unused hn := absurd hp hn

/-- A FINAL ends in DONE with REM and BUF zero (R29, R33). -/
theorem Context.Inv.done (k : Nat) (y : Block) (m : Word64) {rem : Block} {remLen : BitVec 4}
    (hi : c.phase ≠ .idle) (hf : c.phase ≠ .failed)
    (hrem : rem = 0) (hlen : remLen = 0) :
    Context.Inv
      { c with
        phase := .done
        cb := inc32^[k] c.cb
        y := y
        procLen := m
        rem := rem
        remLen := remLen
        buf := []
        bufLen := 0 } where
  cleared hc := by simp at hc
  tlen_legal _ _ := h.tlen_legal hi hf
  rem_padded := by
    subst hrem hlen
    exact blockOf_nil.symm
  rem_unused _ := ⟨hrem, hlen⟩
  whole_blocks hp := by simp at hp
  nothing_folded hp := by simp at hp
  counter_upper := (inc32_iterate_upper k c.cb).trans h.counter_upper
  buf_fits := Nat.zero_le _
  buf_valid := rfl
  buf_unused _ := ⟨rfl, rfl⟩

/-- A remainder of no bytes is the zero block (R29). -/
theorem Context.Inv.rem_eq_zero (h0 : c.remLen = 0) : c.rem = 0 := by
  have hb : c.remBytes = [] := List.eq_nil_of_length_eq_zero (by rw [remBytes_length, h0]; rfl)
  rw [h.rem_padded, hb, blockOf_nil]

end

/-- Every command keeps the invariant of the registers. -/
theorem Effect.keeps_inv {E : Block → Block} {c : Context} {i : Instr} {r : Reply}
    (he : Effect E c i r) (h : c.Inv) : r.ctx.Inv := by
  cases he with
  | nop | sequence | initRefused | encFinalNoRoom | decFinalNoRoom => exact h
  | zeroize => exact inv_reset
  | overflow => exact inv_cleared (.inr rfl)
  | init hi _ ht => exact inv_initContext E hi ht
  | encUpdate n y t hp ht => exact h.encUpdate n y hp ht
  | decUpdate hp hfit => exact h.decUpdate hp hfit
  | encFinal k y m hp =>
    obtain ⟨hbuf, hlen⟩ := h.buf_unused (by simp [hp])
    have hrem : (if c.remLen = 0 then c.rem else 0) = 0 := by
      split
      · exact h.rem_eq_zero ‹_›
      · rfl
    simpa [hbuf, hlen] using h.done k y m (by simp [hp]) (by simp [hp]) hrem rfl
  | decFinal k y m hp =>
    obtain ⟨hrem, hlen⟩ := h.rem_unused (by simp [hp])
    exact h.done k y m (by simp [hp]) (by simp [hp]) hrem hlen

theorem inMessage_iff (c : Context) :
    c.inMessage = true ↔ c.phase = .encrypting ∨ c.phase = .decrypting := by
  unfold Context.inMessage
  split <;> simp_all

@[simp] theorem reset_inMessage : Context.reset.inMessage = false := rfl

/-- A message that is in progress after a command keeps H, or INIT has set it (R25). -/
theorem Effect.keeps_subkey {E : Block → Block} {c : Context} {i : Instr} {r : Reply}
    (he : Effect E c i r) (h : c.inMessage = true → c.h = E 0) :
    r.ctx.inMessage = true → r.ctx.h = E 0 := by
  cases he with
  | nop | sequence | initRefused | encFinalNoRoom | decFinalNoRoom => exact h
  | zeroize | overflow => exact fun hm => absurd hm (by decide)
  | init => exact fun _ => rfl
  | encUpdate _ _ _ hp => exact fun _ => h ((inMessage_iff c).mpr (.inl hp))
  | decUpdate hp => exact fun _ => h ((inMessage_iff c).mpr (.inr hp))
  | encFinal | decFinal => exact fun hm => by simp [inMessage_iff] at hm

/-! ## What a step does first -/

@[simp] theorem parseFrame_nil : parseFrame [] = .incomplete := rfl

/-- A pending reset is what a step takes (R212). -/
theorem step_of_reset {s : State} {rest : List HostMove} (h : s.hostIn = .reset :: rest) :
    step s = .next (hardwareReset s) := by
  rw [step, if_pos ((resetPending_iff s).mpr ⟨rest, h⟩)]

/-- With nothing received and a move that is no reset, the step takes the move (R231). -/
theorem step_of_rx_nil {s : State} (hr : s.resetPending = false) (hx : s.rx = []) :
    step s = takeMove s := by
  rw [step, if_neg (by simp [hr]), hx, parseFrame_nil]

/-! ## The invariant of the state -/

/-- Bytes that make a whole frame were received in step with the host's frame boundaries (R232). -/
theorem State.Inv.resync_of_frame {s : State} (h : s.Inv) (hf : parseFrame s.rx ≠ .incomplete) :
    s.resync = false := by
  cases hr : s.resync
  · rfl
  · exact absurd (by rw [h.resynced hr, parseFrame_nil]) hf

/-- Serving a whole frame keeps the invariant where its answer keeps it. -/
theorem State.Inv.serve {s : State} (h : s.Inv) (hf : parseFrame s.rx ≠ .incomplete)
    (rest : List Byte) {c : Context} (e : Err) (out : List Byte) (hc : c.Inv)
    (hk : c.inMessage = true → c.h = s.cipher 0) :
    ({ s with rx := rest }.answered c e out).Inv where
  context := hc
  subkey := hk
  resynced hr := absurd (h.resync_of_frame hf ▸ hr : false = true) (by decide)

theorem inv_hardwareReset (s : State) : (hardwareReset s).Inv where
  context := inv_reset
  subkey h := by simp at h
  resynced _ := rfl

theorem State.Inv.takeMove {s t : State} (h : s.Inv) (ht : takeMove s = .next t) : t.Inv := by
  obtain ⟨-, rfl⟩ | ⟨bs, rest, -, rfl⟩ | ⟨rest, -, rfl⟩ | ⟨rest, -, rfl⟩ | ⟨k, rest, -, hk, rfl⟩ :=
    takeMove_cases ht
  · exact h
  · refine ⟨h.context, h.subkey, fun hr => ?_⟩
    have hr : s.resync = true := hr
    simp [hr, h.resynced hr]
  · exact ⟨h.context, h.subkey, fun hr => absurd hr (by simp)⟩
  · exact inv_hardwareReset s
  · refine ⟨h.context, fun hm => ?_, h.resynced⟩
    obtain hn | rfl := hk
    · exact absurd (hm : s.ctx.inMessage = true) (by simp [hn])
    · exact h.subkey hm

theorem State.Inv.step {s t : State} (h : s.Inv) (ht : step s = .next t) : t.Inv := by
  obtain ⟨-, rfl⟩ | ⟨i, rest, -, hp, he⟩ | ⟨why, rest, -, hp, rfl⟩ | ⟨-, -, hm⟩ := step_cases ht
  · exact inv_hardwareReset s
  · rw [exec_eq] at he
    injection he with he
    subst he
    have hr := replyOf_effect i { s with rx := rest }
    exact h.serve (by simp [hp]) rest _ _ (hr.keeps_inv h.context) (hr.keeps_subkey h.subkey)
  · exact h.serve (by simp [hp]) rest _ _ h.context h.subkey
  · exact h.takeMove hm

/-- `REM[REM_LEN..16)` is zero (R39). -/
theorem Context.Inv.rem_tail {c : Context} (h : c.Inv) :
    (blockBytes c.rem).drop c.remLen.toNat = zeros (16 - c.remLen.toNat) := by
  have hlen : c.remBytes.length ≤ 16 := by
    have := c.remLen.isLt
    rw [remBytes_length]
    omega
  rw [h.rem_padded, blockBytes_blockOf _ hlen, remBytes_length]
  exact List.drop_left' (remBytes_length c)

/-- Settles O12, from the effects of the commands and the host's moves on each clause. -/
theorem stepKeepsTheInvariant : Obligations.StepKeepsTheInvariant := by
  refine ⟨fun s t h ht => h.step ht, fun s h => ?_⟩
  have hc := h.context
  exact ⟨s.ctx.remLen.isLt, hc.rem_tail, hc.whole_blocks, fun hp => (hc.nothing_folded hp).1,
    hc.counter_upper, hc.buf_fits⟩

/-- Settles O11: after reset the registers are cleared and nothing is received. -/
theorem resetMeetsTheInvariant : Obligations.ResetMeetsTheInvariant where
  context := inv_reset
  subkey h := absurd h (by decide)
  resynced _ := rfl

/-- The outcome, when it is a next state, meets the invariant. -/
def NextInv (o : Host.Outcome State Fault Refusal) : Prop := ∀ u, o = .next u → u.Inv

/-- Moves that the host adds to its list keep the invariant. -/
theorem State.Inv.addMoves {s : State} (h : s.Inv) (ms : List HostMove) :
    { s with hostIn := s.hostIn ++ ms }.Inv :=
  ⟨h.context, h.subkey, h.resynced⟩

/-- Settles O13, by induction on the host's inputs: a run that has stopped stays stopped, and a
running one keeps the invariant in each step. -/
theorem hostDrivenRunsKeepTheInvariant : Obligations.HostDrivenRunsKeepTheInvariant := by
  intro inputs s t h ht
  have hstart : NextInv (.next s) := by
    rintro u ⟨⟩
    exact h
  refine List.foldlRecOn (motive := NextInv) inputs _ hstart (fun o ho ms _ u hu => ?_) t ht
  cases o with
  | next v => exact ((ho v rfl).addMoves ms).step hu
  | fault r => cases hu
  | refused r => cases hu

/-! ## Phases -/

/-- A pair that R210 refuses is no row of R22. -/
theorem phaseRow_of_not_legal {i : Instr} {p : Phase} (h : phaseLegal i p = false) (e : Err)
    (q : Phase) : phaseRow p i e q = false := by
  cases i with
  | nop | zeroize => simp [phaseLegal] at h
  | initEnc | initDec | encUpdate | decUpdate | encFinal | decFinal =>
    cases p <;> simp_all [phaseLegal, phaseRow]

/-- A command takes a row of R22, or R210 refuses it. -/
theorem Effect.phase {E : Block → Block} {c : Context} {i : Instr} {r : Reply}
    (he : Effect E c i r) :
    phaseRow c.phase i r.err r.ctx.phase = true ∨
      (phaseLegal i c.phase = false ∧ r = replyErr .sequence c) := by
  cases he with
  | nop => exact .inl (by simp [phaseRow])
  | zeroize => exact .inl (by cases c.phase <;> rfl)
  | sequence hp => exact .inr ⟨hp, rfl⟩
  | initRefused hi hp | init hi hp =>
    cases hi <;> exact .inl (by simp [hp, phaseRow, initContext])
  | encUpdate _ _ _ hp | encFinal _ _ _ hp | decUpdate hp | overflow hp | encFinalNoRoom hp
  | decFinalNoRoom hp => exact .inl (by simp [hp, phaseRow])
  | decFinal _ _ _ hp he => exact .inl (by simp [hp, phaseRow, he])

/-- INVALID_PARAM and BUFFER_TOO_SMALL change no register (R22). -/
theorem Effect.ctx_of_refused {E : Block → Block} {c : Context} {i : Instr} {r : Reply}
    (he : Effect E c i r) (h : r.err = .invalidParam ∨ r.err = .bufferTooSmall) : r.ctx = c := by
  cases he with
  | nop | sequence | initRefused | encFinalNoRoom | decFinalNoRoom => rfl
  | zeroize | init | encUpdate | decUpdate | overflow | encFinal => simp at h
  | decFinal _ _ _ _ he => obtain rfl | rfl := he <;> simp at h

/-- No row of R22 leads from one direction to the other. -/
theorem phaseRow_keeps_direction (i : Instr) (e : Err) :
    phaseRow .encrypting i e .decrypting = false ∧
      phaseRow .decrypting i e .encrypting = false := by
  cases i <;> simp [phaseRow]

/-- No command leads from one direction to the other. -/
theorem Effect.keeps_direction {E : Block → Block} {c : Context} {i : Instr} {r : Reply}
    (he : Effect E c i r) :
    ¬ (c.phase = .encrypting ∧ r.ctx.phase = .decrypting) ∧
      ¬ (c.phase = .decrypting ∧ r.ctx.phase = .encrypting) := by
  obtain ⟨hed, hde⟩ := phaseRow_keeps_direction i r.err
  obtain hrow | ⟨-, rfl⟩ := he.phase
  · constructor <;> rintro ⟨hc, hr⟩ <;> rw [hc, hr] at hrow
    · exact absurd hrow (by simp [hed])
    · exact absurd hrow (by simp [hde])
  · constructor <;> rintro ⟨hc, hr⟩ <;> simp [hc] at hr

/-- Settles O14, from the effects of the commands. -/
theorem phaseChangesOnlyByTheTable : Obligations.PhaseChangesOnlyByTheTable := by
  refine ⟨fun i s => ?_, fun s t rest h ht => ?_⟩
  · have he := replyOf_effect i s
    refine ⟨_, _, _, exec_eq i s, ?_, he.ctx_of_refused, he.keeps_direction⟩
    obtain hrow | ⟨hl, hr⟩ := he.phase
    · exact .inl hrow
    · rw [hr]
      exact .inr ⟨phaseRow_of_not_legal hl, rfl, rfl⟩
  · rw [step_of_reset h] at ht
    injection ht with ht
    rw [← ht]
    rfl

/-- Settles O18, from the registers that each effect names. -/
theorem onlyItsWritersChangeARegister : Obligations.OnlyItsWritersChangeARegister := by
  intro i s
  refine ⟨_, _, _, exec_eq i s, ?_⟩
  have he := replyOf_effect i s
  generalize replyOf i s = r at he
  cases he with
  | nop | sequence | initRefused | encFinalNoRoom | decFinalNoRoom => simp
  | zeroize => exact .inl (by simp)
  | init hi => cases hi <;> exact .inl (by simp)
  | overflow => exact .inr (.inl ⟨rfl, _, rfl⟩)
  | encUpdate | decUpdate | encFinal | decFinal => exact .inr (.inr (by simp))

/-! ## BUF -/

/-- Byte `k` of a piece of BUF is byte `o + k` of BUF, and zero beyond the list (R33). -/
theorem getD_bufSlice {buf : List Byte} {o m k : Nat} (hk : k < m) :
    (bufSlice buf o m).getD k 0 = buf.getD (o + k) 0 := by
  simp only [bufSlice, zeros, List.getD_eq_getElem?_getD, List.getElem?_append, List.getElem?_take,
    List.getElem?_drop, List.getElem?_replicate, List.length_take, List.length_drop]
  obtain hb | hb := Nat.lt_or_ge (o + k) buf.length
  · rw [if_pos (by omega), if_pos hk]
  · rw [if_neg (by omega), List.getElem?_eq_none hb]
    split <;> rfl

/-- A write into BUF changes the bytes written and no other (R33). -/
theorem getD_bufWrite (buf : List Byte) (o : Nat) (chunk : List Byte) (k : Nat) :
    (bufWrite buf o chunk).getD k 0 =
      if o ≤ k ∧ k < o + chunk.length then chunk.getD (k - o) 0 else buf.getD k 0 := by
  have hlen := bufSlice_length buf 0 o
  rw [bufWrite]
  obtain hk | hk := Nat.lt_or_ge k o
  · rw [List.getD_append _ _ _ _ (by omega), getD_bufSlice hk, Nat.zero_add,
      if_neg (by omega)]
  · rw [List.getD_append_right _ _ _ _ (by omega), hlen]
    obtain hc | hc := Nat.lt_or_ge k (o + chunk.length)
    · rw [List.getD_append _ _ _ _ (by omega), if_pos ⟨hk, hc⟩]
    · rw [List.getD_append_right _ _ _ _ (by omega), if_neg (by omega)]
      rw [List.getD_eq_getElem?_getD, List.getElem?_drop, ← List.getD_eq_getElem?_getD]
      congr 1
      omega

/-- DEC_UPDATE of a chunk that fits (R170). -/
theorem decUpdateReply_of_fits {cap : Nat} {chunk : List Byte} {c : Context}
    (hp : c.phase = .decrypting) (hfit : c.bufLen.toNat + chunk.length ≤ cap) :
    decUpdateReply cap chunk c = reply
      { c with
        buf := bufWrite c.buf c.bufLen.toNat chunk
        bufLen := c.bufLen + BitVec.ofNat 64 chunk.length } [] := by
  rw [decUpdateReply, if_neg (by simp [hp]), if_neg (by omega)]

/-- Settles O29, from the rule for one byte of BUF after a write. -/
theorem decUpdateAppendsToBuf : Obligations.DecUpdateAppendsToBuf := by
  intro s chunk hp hfit
  refine ⟨_, _, ?_, toNat_bufLen_add hfit, getD_bufWrite s.ctx.buf s.ctx.bufLen.toNat chunk⟩
  rw [exec_eq, replyOf, decUpdateReply_of_fits hp hfit]
  rfl

/-! ## Secrets -/

/-- The registers of R20 that are not secret agree. -/
structure PublicEq (c d : Context) : Prop where
  phase : c.phase = d.phase
  tlen : c.tlen = d.tlen
  remLen : c.remLen = d.remLen
  aadLen : c.aadLen = d.aadLen
  procLen : c.procLen = d.procLen
  bufLen : c.bufLen = d.bufLen

/-- Two answers that the host cannot tell apart by STATUS or by OUTLEN. -/
def SameAnswer (r q : Reply) : Prop :=
  statusWord r.err r.ctx = statusWord q.err q.ctx ∧ r.out.length = q.out.length

section
variable {c d : Context} (hp : c.phase = d.phase) (ht : c.tlen = d.tlen)
include hp ht

/-- STATUS is made of the error code, PHASE and TLEN alone (R34). -/
theorem statusWord_congr (e : Err) : statusWord e c = statusWord e d := by
  rw [statusWord, statusWord, hp, ht]

theorem SameAnswer.reply {out out' : List Byte} (ho : out.length = out'.length) :
    SameAnswer (reply c out) (reply d out') :=
  ⟨statusWord_congr hp ht .ok, ho⟩

theorem SameAnswer.replyErr (e : Err) : SameAnswer (replyErr e c) (replyErr e d) :=
  ⟨statusWord_congr hp ht e, rfl⟩

end

section
variable (E : Block → Block) (c : Context)

@[simp] theorem encryptBlocks_phase (ps : List Block) :
    (encryptBlocks E c ps).1.phase = c.phase := by
  rw [encryptBlocks_frame]

@[simp] theorem encryptBlocks_tlen (ps : List Block) : (encryptBlocks E c ps).1.tlen = c.tlen := by
  rw [encryptBlocks_frame]

@[simp] theorem decryptWalk_tlen (n k o : Nat) : (decryptWalk E n k o c).tlen = c.tlen := by
  rw [decryptWalk_frame]

@[simp] theorem tag_length : (c.tag E).length = min c.tlen.toNat 16 := by
  simp [Context.tag]

/-- The partial block of ENC_FINAL is as long as the remainder (R152). -/
@[simp] theorem encryptPartial_length : (encryptPartial E c).2.length = c.remLen.toNat := by
  have := c.remLen.isLt
  simp only [encryptPartial, xorBytes_length, remBytes_length, blockBytes_length]
  omega

@[simp] theorem encryptPartial_tlen : (encryptPartial E c).1.tlen = c.tlen := rfl

end

/-! ## Each case of the pipelines, as far as STATUS and OUTLEN show it -/

section
variable (E : Block → Block) {c : Context} {outcap : Word64}

theorem encUpdateReply_of_not_encrypting (chunk : List Byte) (hp : c.phase ≠ .encrypting) :
    encUpdateReply E chunk c = replyErr .sequence c :=
  if_pos hp

theorem encUpdateReply_of_encrypting (chunk : List Byte) (hp : c.phase = .encrypting) :
    ∃ w out, encUpdateReply E chunk c = reply w out ∧ w.phase = .encrypting ∧
      w.tlen = c.tlen ∧ out.length = 16 * ((c.remLen.toNat + chunk.length) / 16) := by
  obtain ⟨hn, -⟩ | ⟨-, d, n, hd, hn, hr⟩ := encUpdateReply_cases E chunk c
  · exact absurd hp hn
  · refine ⟨_, _, hr, by simp [hp], by simp, ?_⟩
    obtain ⟨-, -, hout⟩ := encryptBlocks_counters E ((chunks n d).map blockOf) c
    rw [hout, List.length_map, chunks_length, hn, hd, List.length_append, remBytes_length]

theorem encFinalReply_of_not_encrypting (hp : c.phase ≠ .encrypting) :
    encFinalReply E outcap c = replyErr .sequence c :=
  if_pos hp

theorem encFinalReply_of_no_room (hp : c.phase = .encrypting)
    (hc : outcap.toNat < c.remLen.toNat + c.tlen.toNat) :
    encFinalReply E outcap c = replyErr .bufferTooSmall c := by
  rw [encFinalReply, if_neg (by simp [hp]), if_pos hc]

theorem encFinalReply_of_room (hp : c.phase = .encrypting)
    (hc : c.remLen.toNat + c.tlen.toNat ≤ outcap.toNat) :
    ∃ w out, encFinalReply E outcap c = reply w out ∧ w.phase = .done ∧
      w.tlen = c.tlen ∧ out.length = c.remLen.toNat + min c.tlen.toNat 16 := by
  obtain ⟨hn, -⟩ | ⟨-, hn, -⟩ | ⟨-, -, p, hpart, hr⟩ := encFinalReply_cases E outcap c
  · exact absurd hp hn
  · omega
  · have htlen : p.1.tlen = c.tlen := by
      subst hpart
      split <;> rfl
    have hlen : p.2.length = c.remLen.toNat := by
      subst hpart
      split <;> simp_all
    exact ⟨_, _, hr, rfl, htlen, by simp [htlen, hlen]⟩

theorem decFinalReply_of_not_decrypting (hp : c.phase ≠ .decrypting) :
    decFinalReply E outcap c = replyErr .sequence c :=
  if_pos hp

theorem decFinalReply_of_short (hp : c.phase = .decrypting)
    (hs : c.bufLen.toNat < c.tlen.toNat) :
    decFinalReply E outcap c = replyErr .authFailed { c.clearBuf with phase := .done } := by
  rw [decFinalReply, if_neg (by simp [hp]), if_pos hs]

theorem decFinalReply_of_no_room (hp : c.phase = .decrypting)
    (hs : c.tlen.toNat ≤ c.bufLen.toNat) (hc : outcap.toNat < c.bufLen.toNat - c.tlen.toNat) :
    decFinalReply E outcap c = replyErr .bufferTooSmall c := by
  rw [decFinalReply, if_neg (by simp [hp]), if_neg (by omega)]
  exact if_pos hc

theorem decFinalReply_of_room (hp : c.phase = .decrypting) (hs : c.tlen.toNat ≤ c.bufLen.toNat)
    (hc : c.bufLen.toNat - c.tlen.toNat ≤ outcap.toNat) :
    ∃ w out, w.phase = .done ∧ w.tlen = c.tlen ∧ out.length = c.bufLen.toNat - c.tlen.toNat ∧
      (decFinalReply E outcap c = reply w out ∨
        decFinalReply E outcap c = replyErr .authFailed w) := by
  obtain ⟨hn, -⟩ | ⟨-, hn, -⟩ | ⟨-, -, hn, -⟩ | ⟨-, -, n, w, hn, -, hw, hr⟩ :=
    decFinalReply_cases E outcap c
  · exact absurd hp hn
  · omega
  · omega
  · have htlen : w.tlen = c.tlen := by simp [hw]
    refine ⟨{ w.clearBuf with phase := .done }, bufSlice w.buf 0 n, rfl, htlen, by simp [hn], ?_⟩
    rw [hr]
    split
    · exact .inl rfl
    · exact .inr rfl

end

section
variable {c d : Context} (h : PublicEq c d)
include h

variable (E F : Block → Block)

theorem PublicEq.initReply (dir : Phase) (tl : BitVec 5) (iv aad : List Byte) :
    SameAnswer (initReply E dir tl iv aad c) (initReply F dir tl iv aad d) := by
  unfold Machine.initReply
  rw [h.phase]
  split_ifs
  · exact .replyErr h.phase h.tlen _
  · exact .replyErr h.phase h.tlen _
  · exact .replyErr h.phase h.tlen _
  · exact .reply rfl rfl rfl

theorem PublicEq.encUpdateReply (chunk : List Byte) :
    SameAnswer (encUpdateReply E chunk c) (encUpdateReply F chunk d) := by
  by_cases hp : d.phase = .encrypting
  · obtain ⟨w, out, hr, hwp, hwt, hout⟩ :=
      encUpdateReply_of_encrypting E chunk (h.phase.trans hp)
    obtain ⟨v, out', hq, hvp, hvt, hout'⟩ := encUpdateReply_of_encrypting F chunk hp
    rw [hr, hq]
    exact .reply (hwp.trans hvp.symm) (by rw [hwt, hvt, h.tlen]) (by rw [hout, hout', h.remLen])
  · rw [encUpdateReply_of_not_encrypting F chunk hp,
      encUpdateReply_of_not_encrypting E chunk (h.phase ▸ hp)]
    exact .replyErr h.phase h.tlen _

theorem PublicEq.decUpdateReply (cap : Nat) (chunk : List Byte) :
    SameAnswer (decUpdateReply cap chunk c) (decUpdateReply cap chunk d) := by
  unfold Machine.decUpdateReply
  rw [h.bufLen]
  simp only [h.phase]
  split_ifs
  · exact .replyErr h.phase h.tlen _
  · exact .replyErr rfl rfl _
  · exact .reply (by rfl) (by exact h.tlen) (by rfl)

theorem PublicEq.encFinalReply (outcap : Word64) :
    SameAnswer (encFinalReply E outcap c) (encFinalReply F outcap d) := by
  by_cases hp : d.phase = .encrypting
  · have hp' := h.phase.trans hp
    have hneed : c.remLen.toNat + c.tlen.toNat = d.remLen.toNat + d.tlen.toNat := by
      rw [h.remLen, h.tlen]
    obtain hc | hc := Nat.lt_or_ge outcap.toNat (d.remLen.toNat + d.tlen.toNat)
    · rw [encFinalReply_of_no_room E hp' (hc.trans_eq hneed.symm), encFinalReply_of_no_room F hp hc]
      exact .replyErr h.phase h.tlen _
    · obtain ⟨w, out, hr, hwp, hwt, hout⟩ := encFinalReply_of_room E hp' (hneed.trans_le hc)
      obtain ⟨v, out', hq, hvp, hvt, hout'⟩ := encFinalReply_of_room F hp hc
      rw [hr, hq]
      exact .reply (hwp.trans hvp.symm) (by rw [hwt, hvt, h.tlen])
        (by rw [hout, hout', h.remLen, h.tlen])
  · rw [encFinalReply_of_not_encrypting F hp, encFinalReply_of_not_encrypting E (h.phase ▸ hp)]
    exact .replyErr h.phase h.tlen _

/-- DEC_FINAL's answers agree where its verdicts on the tag do (R174). -/
theorem PublicEq.decFinalReply (outcap : Word64)
    (hv : (decFinalReply E outcap c).err = .authFailed ↔
      (decFinalReply F outcap d).err = .authFailed) :
    SameAnswer (decFinalReply E outcap c) (decFinalReply F outcap d) := by
  by_cases hp : d.phase = .decrypting
  · have hp' := h.phase.trans hp
    have ht : c.tlen.toNat = d.tlen.toNat := by rw [h.tlen]
    have hb : c.bufLen.toNat = d.bufLen.toNat := by rw [h.bufLen]
    obtain hs | hs := Nat.lt_or_ge d.bufLen.toNat d.tlen.toNat
    · rw [decFinalReply_of_short E hp' (by omega), decFinalReply_of_short F hp hs]
      exact .replyErr (by rfl) (by exact h.tlen) _
    · obtain hc | hc := Nat.lt_or_ge outcap.toNat (d.bufLen.toNat - d.tlen.toNat)
      · rw [decFinalReply_of_no_room E hp' (by omega) (by omega),
          decFinalReply_of_no_room F hp hs hc]
        exact .replyErr h.phase h.tlen _
      · obtain ⟨w, out, hwp, hwt, hout, hr⟩ :=
          decFinalReply_of_room E (outcap := outcap) hp' (by omega) (by omega)
        obtain ⟨v, out', hvp, hvt, hout', hq⟩ := decFinalReply_of_room F hp hs hc
        have hphase := hwp.trans hvp.symm
        have htlen : w.tlen = v.tlen := by rw [hwt, hvt, h.tlen]
        obtain hr | hr := hr <;> obtain hq | hq := hq <;> rw [hr, hq] at hv ⊢
        · exact .reply hphase htlen (by omega)
        · simp at hv
        · simp at hv
        · exact .replyErr hphase htlen _
  · rw [decFinalReply_of_not_decrypting F hp, decFinalReply_of_not_decrypting E (h.phase ▸ hp)]
    exact .replyErr h.phase h.tlen _

end

/-- Every command answers alike in two states that agree on the registers that are not secret, but
for DEC_FINAL's verdict. -/
theorem PublicEq.replyOf {s u : State} (h : PublicEq s.ctx u.ctx) (i : Instr)
    (hv : (∀ n, i ≠ .decFinal n) ∨
      ((replyOf i s).err = .authFailed ↔ (replyOf i u).err = .authFailed)) :
    SameAnswer (replyOf i s) (replyOf i u) := by
  cases i with
  | nop => exact .reply h.phase h.tlen rfl
  | initEnc tl iv aad => exact h.initReply _ _ _ tl iv aad
  | initDec tl iv aad => exact h.initReply _ _ _ tl iv aad
  | encUpdate chunk => exact h.encUpdateReply _ _ chunk
  | decUpdate chunk => exact h.decUpdateReply _ chunk
  | encFinal outcap => exact h.encFinalReply _ _ outcap
  | decFinal outcap =>
    exact h.decFinalReply _ _ outcap (hv.resolve_left fun hn => hn outcap rfl)
  | zeroize => exact .reply rfl rfl rfl

/-- Only ENC_UPDATE and the FINALs emit. -/
theorem Effect.out_eq_nil {E : Block → Block} {c : Context} {i : Instr} {r : Reply}
    (he : Effect E c i r) (hu : ∀ chunk, i ≠ .encUpdate chunk) (hf : ∀ n, i ≠ .encFinal n)
    (hd : ∀ n, i ≠ .decFinal n) : r.out = [] := by
  cases he with
  | encUpdate => exact absurd rfl (hu _)
  | encFinal => exact absurd rfl (hf _)
  | decFinal => exact absurd rfl (hd _)
  | _ => rfl

/-- Settles O45: each reply's STATUS and OUTLEN come from the registers that are not secret. -/
theorem statusAndOutputLengthAreIndependentOfSecrets :
    Obligations.StatusAndOutputLengthAreIndependentOfSecrets := by
  intro i s u hphase htlen hrem haad hproc hbuf
  have h : PublicEq s.ctx u.ctx := ⟨hphase, htlen, hrem, haad, hproc, hbuf⟩
  exact ⟨_, _, _, _, _, _, exec_eq i s, exec_eq i u, h.replyOf i, fun hu hf hd =>
    ⟨(replyOf_effect i s).out_eq_nil hu hf hd, (replyOf_effect i u).out_eq_nil hu hf hd⟩⟩

/-! ## The key -/

/-- Settles O10: the move is what the step takes, and `inMessage` decides it. -/
theorem keyChangesOnlyBetweenMessages : Obligations.KeyChangesOnlyBetweenMessages := by
  intro s k rest hx hm
  have hstep : step s = takeMove s :=
    step_of_rx_nil (by rw [State.resetPending, hm]) hx
  rw [hstep, takeMove, hm]
  refine ⟨fun h => if_neg ?_, fun hp hk => if_pos ?_⟩
  · obtain hp | hp | hp | rfl := h
    · simp [Context.inMessage, hp]
    · simp [Context.inMessage, hp]
    · simp [Context.inMessage, hp]
    · simp
  · simp [(inMessage_iff s.ctx).mpr hp, hk]

/-! ## STATUS and the response frame -/

/-- The fields of STATUS, from bit 0 up (R34). -/
theorem statusWord_fields (e : Err) (c : Context) :
    (statusWord e c).extractLsb' 0 4 = e.code ∧
    (statusWord e c).extractLsb' 4 3 = c.phase.code ∧
    (statusWord e c).getLsbD 7 = false ∧
    (statusWord e c).extractLsb' 8 5 = c.tlen ∧
    (statusWord e c).extractLsb' 13 19 = 0 := by
  refine ⟨BitVec.extractLsb'_append_eq_right, ?_, ?_, ?_, ?_⟩ <;> rw [statusWord]
  · rw [BitVec.extractLsb'_append_eq_of_le (by decide)]
    exact BitVec.extractLsb'_append_eq_right
  · simp only [BitVec.getLsbD_append]
    rfl
  · rw [BitVec.extractLsb'_append_eq_of_le (by decide),
      BitVec.extractLsb'_append_eq_of_le (by decide), BitVec.extractLsb'_append_eq_of_le (by decide)]
    exact BitVec.extractLsb'_append_eq_right
  · rw [BitVec.extractLsb'_append_eq_of_le (by decide),
      BitVec.extractLsb'_append_eq_of_le (by decide), BitVec.extractLsb'_append_eq_of_le (by decide)]
    exact BitVec.extractLsb'_append_eq_left

/-- A word is read back from its encoding (R53). -/
theorem ofNat_beNat_be32 (w : Word32) : BitVec.ofNat 32 (beNat (be32 w.toNat)) = w := by
  rw [be32, beNat_beBytes, Nat.mod_eq_of_lt (by simpa using w.isLt)]
  simp

/-- The fields of a response frame stand at bytes 0, 4 and 12 (R85). -/
theorem Response.bytes_fields (r : Response) :
    r.bytes.take 4 = be32 r.status.toNat ∧ (r.bytes.drop 4).take 8 = be64 r.out.length ∧
      r.bytes.drop 12 = r.out := by
  have hdrop : r.bytes.drop 4 = be64 r.out.length ++ r.out := List.drop_left' (be32_length _)
  refine ⟨List.take_left' (be32_length _), ?_, ?_⟩
  · rw [hdrop]
    exact List.take_left' (be64_length _)
  · rw [← List.drop_drop (i := 8) (j := 4), hdrop]
    exact List.drop_left' (be64_length _)

/-- Settles O17, from the fields of STATUS and of the response frame. -/
theorem statusWordLayout : Obligations.StatusWordLayout := by
  refine ⟨statusWord_fields, fun r hlen => ?_, rfl, rfl⟩
  obtain ⟨hstatus, houtlen, hout⟩ := r.bytes_fields
  rw [hstatus, houtlen, ofNat_beNat_be32, beNat_be64, Nat.mod_eq_of_lt hlen]
  exact ⟨rfl, rfl, hout⟩

end Sys2Proof.Machine

namespace Sys2Proof

/-! ## Whole frames (R70, R74) -/

/-- What the decoder answers for a whole frame. -/
def frameOf (r : Except IllegalWord Instr) (rest : List Byte) : Frame :=
  match r with
  | .ok i => .command i rest
  | .error why => .illegal why rest

/-- The length of the frame at the head of the bytes, as its OP and argument words give it (R72). -/
def frameLen (bs : List Byte) : Nat :=
  headerLen (opField (commandWord bs)) +
    payloadLen (opField (commandWord bs)) (argWord bs 0) (argWord bs 1)

theorem four_le_headerLen (op : BitVec 8) : 4 ≤ headerLen op := Nat.le_add_right 4 _

theorem headerLen_le_frameLen (bs : List Byte) :
    headerLen (opField (commandWord bs)) ≤ frameLen bs := Nat.le_add_right _ _

/-- A frame is served when all its bytes are there (R74). -/
theorem parseFrame_eq (bs : List Byte) :
    parseFrame bs =
      if bs.length < frameLen bs then .incomplete
      else frameOf (decodeCommand (commandWord bs) (argWord bs 0)
        ((bs.take (frameLen bs)).drop (headerLen (opField (commandWord bs)))))
        (bs.drop (frameLen bs)) := by
  have h4 := four_le_headerLen (opField (commandWord bs))
  have hh := headerLen_le_frameLen bs
  change (if bs.length < 4 then Frame.incomplete
    else if bs.length < headerLen (opField (commandWord bs)) then .incomplete
    else if bs.length < frameLen bs then .incomplete else frameOf _ _) = _
  by_cases hlen : bs.length < frameLen bs
  · simp only [hlen, if_true, ite_self]
  · rw [if_neg (by omega), if_neg (by omega)]
    rfl

/-- The command word is read from the first four bytes. -/
theorem commandWord_append {bs : List Byte} (h : 4 ≤ bs.length) (cs : List Byte) :
    commandWord (bs ++ cs) = commandWord bs := by
  rw [commandWord, commandWord, List.take_append_of_le_length h]

/-- Argument word `k` is read from the eight bytes at `4 + 8k`. -/
theorem argWord_append {bs : List Byte} {k : Nat} (h : 4 + 8 * (k + 1) ≤ bs.length)
    (cs : List Byte) : argWord (bs ++ cs) k = argWord bs k := by
  rw [argWord, argWord, List.drop_append_of_le_length (by omega),
    List.take_append_of_le_length (by rw [List.length_drop]; omega)]

/-- PLEN uses only the argument words that the frame has (R72). -/
theorem payloadLen_congr {op : BitVec 8} {a₀ a₁ b₀ b₁ : Nat} (h₀ : 1 ≤ nargs op → a₀ = b₀)
    (h₁ : 2 ≤ nargs op → a₁ = b₁) : payloadLen op a₀ a₁ = payloadLen op b₀ b₁ := by
  unfold nargs at h₀ h₁
  unfold payloadLen
  split <;> simp_all

/-- The length is known once the header is there, whatever follows. -/
theorem frameLen_append {bs : List Byte} (h : headerLen (opField (commandWord bs)) ≤ bs.length)
    (cs : List Byte) : frameLen (bs ++ cs) = frameLen bs := by
  have h4 := four_le_headerLen (opField (commandWord bs))
  rw [frameLen, frameLen, commandWord_append (by omega)]
  rw [headerLen] at h
  congr 1
  exact payloadLen_congr (fun h₀ => argWord_append (by omega) cs)
    (fun h₁ => argWord_append (by omega) cs)

end Sys2Proof

namespace Sys2Proof.Machine

theorem args_bytes_length (args : List Word64) :
    (args.flatMap (fun a => be64 a.toNat)).length = 8 * args.length := by
  induction args with
  | nil => rfl
  | cons a args ih =>
    rw [List.flatMap_cons, List.length_append, ih, be64_length, List.length_cons]
    omega

/-- Argument word `k` is the one the frame was made of (R53). -/
theorem beNat_args {args : List Word64} {k : Nat} (hk : k < args.length) (bs : List Byte) :
    beNat (((args.flatMap (fun a => be64 a.toNat) ++ bs).drop (8 * k)).take 8) =
      (args.getD k 0).toNat := by
  induction args generalizing k with
  | nil => simp at hk
  | cons a args ih =>
    rw [List.flatMap_cons, List.append_assoc]
    cases k with
    | zero =>
      rw [Nat.mul_zero, List.drop_zero, List.take_left' (be64_length _), beNat_be64,
        Nat.mod_eq_of_lt a.isLt, List.getD_cons_zero]
    | succ k =>
      rw [Nat.mul_succ, Nat.add_comm, ← List.drop_drop, List.drop_left' (be64_length _),
        List.getD_cons_succ]
      exact ih (by simpa using hk)

section
variable (f : RawFrame) (rest : List Byte)

/-- The header and the payload of a frame. -/
theorem RawFrame.bytes_eq : f.bytes =
    (be32 f.word.toNat ++ f.args.flatMap (fun a => be64 a.toNat)) ++ f.payload :=
  (List.append_assoc _ _ _).symm

theorem commandWord_frame : commandWord (f.bytes ++ rest) = f.word := by
  rw [RawFrame.bytes, List.append_assoc, commandWord, List.take_left' (be32_length _),
    ofNat_beNat_be32]

theorem argWord_frame {k : Nat} (hk : k < f.args.length) :
    argWord (f.bytes ++ rest) k = (f.args.getD k 0).toNat := by
  rw [argWord, ← List.drop_drop, RawFrame.bytes, List.append_assoc,
    List.drop_left' (be32_length _), List.append_assoc]
  exact beNat_args hk (f.payload ++ rest)

variable {f}
variable (hf : f.Whole)
include hf

theorem header_length :
    (be32 f.word.toNat ++ f.args.flatMap (fun a => be64 a.toNat)).length =
      headerLen (opField f.word) := by
  obtain ⟨hargs, -⟩ := hf
  rw [List.length_append, be32_length, args_bytes_length, hargs, headerLen]

/-- The length that a frame's header gives is the length of the frame (R72). -/
theorem frameLen_frame : frameLen (f.bytes ++ rest) = f.bytes.length := by
  have ⟨hargs, hpay⟩ := hf
  rw [f.bytes_eq, List.length_append, header_length hf, hpay, ← f.bytes_eq, frameLen,
    commandWord_frame]
  congr 1
  exact payloadLen_congr (fun h₀ => argWord_frame f rest (by omega))
    (fun h₁ => argWord_frame f rest (by omega))

/-- A whole frame is decoded from its own word and payload, and the bytes after it are kept (R74). -/
theorem parseFrame_frame :
    parseFrame (f.bytes ++ rest) =
      frameOf (decodeCommand f.word (argWord (f.bytes ++ rest) 0) f.payload) rest := by
  have hpay : f.bytes.drop (headerLen (opField f.word)) = f.payload := by
    rw [f.bytes_eq]
    exact List.drop_left' (header_length hf)
  rw [parseFrame_eq, frameLen_frame rest hf, if_neg (by rw [List.length_append]; omega),
    List.take_left, List.drop_left, commandWord_frame, hpay]

/-- Part of a frame is no frame (R74). -/
theorem parseFrame_part {p q : List Byte} (hpq : f.bytes = p ++ q) (hq : q ≠ []) :
    parseFrame p = .incomplete := by
  have hshort : p.length < frameLen p := by
    obtain hh | hh := Nat.lt_or_ge p.length (headerLen (opField (commandWord p)))
    · exact hh.trans_le (headerLen_le_frameLen p)
    · have hlen := frameLen_frame [] hf
      have := List.length_pos_iff.mpr hq
      rw [List.append_nil, hpq, frameLen_append hh, List.length_append] at hlen
      omega
  rw [parseFrame_eq, if_pos hshort]

end

/-! ## Reset -/

/-- A whole frame is passed over, legal or not. -/
theorem endsInsideFrame_frame {f : RawFrame} (hf : f.Whole) (k : Nat) (rest : List Byte) :
    endsInsideFrame (k + 1) (f.bytes ++ rest) = endsInsideFrame k rest := by
  rw [endsInsideFrame, parseFrame_frame rest hf]
  cases decodeCommand f.word (argWord (f.bytes ++ rest) 0) f.payload <;> rfl

theorem endsInsideFrame_frames {fs : List RawFrame} (hfs : ∀ f ∈ fs, f.Whole) (k : Nat)
    (rest : List Byte) :
    endsInsideFrame (fs.length + k) (fs.flatMap RawFrame.bytes ++ rest) =
      endsInsideFrame k rest := by
  induction fs with
  | nil => simp
  | cons f fs ih =>
    obtain ⟨hf, hfs⟩ := List.forall_mem_cons.mp hfs
    rw [List.flatMap_cons, List.append_assoc, List.length_cons, Nat.add_right_comm,
      endsInsideFrame_frame hf, ih hfs]

/-- A frame has at least the bytes of its command word. -/
theorem length_le_frames_length (fs : List RawFrame) :
    fs.length ≤ (fs.flatMap RawFrame.bytes).length := by
  induction fs with
  | nil => exact Nat.le_refl 0
  | cons f fs ih =>
    rw [List.flatMap_cons, List.length_append, List.length_cons, RawFrame.bytes, List.length_append,
      be32_length]
    omega

/-- After whole frames, the bytes left over decide whether a reset cuts a frame (R232). -/
theorem endsInsideFrame_rx {fs : List RawFrame} (hfs : ∀ f ∈ fs, f.Whole) {p : List Byte}
    (hp : parseFrame p = .incomplete) :
    endsInsideFrame ((fs.flatMap RawFrame.bytes ++ p).length + 1)
      (fs.flatMap RawFrame.bytes ++ p) = !p.isEmpty := by
  have hle := length_le_frames_length fs
  obtain ⟨k, hk⟩ : ∃ k, (fs.flatMap RawFrame.bytes ++ p).length + 1 = fs.length + (k + 1) :=
    ⟨(fs.flatMap RawFrame.bytes ++ p).length - fs.length, by rw [List.length_append]; omega⟩
  rw [hk, endsInsideFrame_frames hfs, endsInsideFrame, hp]

/-- A reset between frames leaves `resync` as it was (R231). -/
theorem hardwareReset_resync_between {s : State} {fs : List RawFrame} (hfs : ∀ f ∈ fs, f.Whole)
    (hx : s.rx = fs.flatMap RawFrame.bytes) : (hardwareReset s).resync = s.resync := by
  have h := endsInsideFrame_rx hfs parseFrame_nil
  rw [List.append_nil, ← hx] at h
  rw [hardwareReset_resync, h]
  simp

/-- A reset inside a frame sets `resync` (R232). -/
theorem hardwareReset_resync_inside {s : State} {fs : List RawFrame} (hfs : ∀ f ∈ fs, f.Whole)
    {f : RawFrame} (hf : f.Whole) {p q : List Byte} (hpq : f.bytes = p ++ q) (hp : p ≠ [])
    (hq : q ≠ []) (hx : s.rx = fs.flatMap RawFrame.bytes ++ p) :
    (hardwareReset s).resync = true := by
  have h := endsInsideFrame_rx hfs (parseFrame_part hf hpq hq)
  rw [← hx] at h
  rw [hardwareReset_resync, h]
  simp [hp]

/-- Bytes sent right after a reset between frames are read from their first byte (R231). -/
theorem steps_two_of_reset_bytes {s : State} {fs : List RawFrame} (hfs : ∀ f ∈ fs, f.Whole)
    (hx : s.rx = fs.flatMap RawFrame.bytes) (hsync : s.resync = false) {bs : List Byte}
    {rest : List HostMove} (hm : s.hostIn = .reset :: .bytes bs :: rest) :
    steps 2 s = .next { s with ctx := Context.reset, rx := bs, hostIn := rest } := by
  have hr : hardwareReset s =
      { s with ctx := Context.reset, rx := [], hostIn := .bytes bs :: rest } := by
    rw [hardwareReset, ← hardwareReset_resync, hardwareReset_resync_between hfs hx, hm]
    rfl
  have hstep : step (hardwareReset s) =
      .next { s with ctx := Context.reset, rx := bs, hostIn := rest } := by
    rw [hr, step_of_rx_nil rfl rfl]
    simp [takeMove, hsync]
  simp only [steps, step_of_reset hm, hstep]

/-- Settles O8, from the length of whole frames and of a frame cut short. -/
theorem resetAndZeroizeLeaveResetValues : Obligations.ResetAndZeroizeLeaveResetValues := by
  refine fun s => ⟨fun rest hm => ?_, fun fs bs rest hfs hx hsync hm => ?_, rfl, rfl⟩
  · refine ⟨hardwareReset s, step_of_reset hm, rfl, rfl, rfl, ?_, rfl, fun fs hfs => ⟨?_, ?_⟩⟩
    · rw [hardwareReset_hostIn, hm]
      rfl
    · exact hardwareReset_resync_between hfs
    · exact fun f p q hf hpq hp hq hx => hardwareReset_resync_inside hfs hf hpq hp hq hx
  · exact steps_two_of_reset_bytes hfs hx hsync hm

end Sys2Proof.Machine
end

section
/-! PROOFS (20_memory.md). A well-formed command's frame is a whole frame that decodes to the
command (R70 to R74), so a step runs it and steps serve frames in order (R57). Then the two UPDATEs,
whose chunk may be split anywhere (R54): ENC_UPDATE carries over the bytes short of a block, and
DEC_UPDATE appends. -/

namespace Sys2Proof

/-! ## The fields of a legal command word (R71) -/

section
variable (op : BitVec 8) (tl : BitVec 5)

@[simp] theorem opField_makeWord : opField (makeWord op tl) = op :=
  BitVec.extractLsb'_append_eq_right

@[simp] theorem tlField_makeWord : tlField (makeWord op tl) = tl := by
  rw [tlField, makeWord, BitVec.extractLsb'_append_eq_of_le (by decide)]
  exact BitVec.extractLsb'_append_eq_right

@[simp] theorem rsvField_makeWord : rsvField (makeWord op tl) = 0 := by
  rw [rsvField, makeWord, BitVec.extractLsb'_append_eq_of_le (by decide),
    BitVec.extractLsb'_append_eq_of_le (by decide)]
  exact BitVec.extractLsb'_eq_self

end

/-- A string that fits has its length in its argument word (R72). -/
theorem toNat_lengthWord {bs : List Byte} (h : fitsArg bs = true) :
    (BitVec.ofNat 64 bs.length).toNat = bs.length := by
  rw [BitVec.toNat_ofNat, Nat.mod_eq_of_lt (of_decide_eq_true h)]

/-- `be64` reduces its number modulo 2^64 itself (R16). -/
theorem be64_toNat_ofNat (n : Nat) : be64 (BitVec.ofNat 64 n).toNat = be64 n :=
  beBytes_mod 8 n

end Sys2Proof

namespace Sys2Proof.Machine

/-! ## The frame of a command -/

/-- The parts of a command's frame (R72, R73). -/
def frameParts : Instr → RawFrame
  | .nop => ⟨makeWord 0x00 0, [], []⟩
  | .initEnc tl iv aad =>
    ⟨makeWord 0x01 tl, [BitVec.ofNat 64 iv.length, BitVec.ofNat 64 aad.length], iv ++ aad⟩
  | .initDec tl iv aad =>
    ⟨makeWord 0x02 tl, [BitVec.ofNat 64 iv.length, BitVec.ofNat 64 aad.length], iv ++ aad⟩
  | .encUpdate chunk => ⟨makeWord 0x03 0, [BitVec.ofNat 64 chunk.length], chunk⟩
  | .decUpdate chunk => ⟨makeWord 0x04 0, [BitVec.ofNat 64 chunk.length], chunk⟩
  | .encFinal outcap => ⟨makeWord 0x05 0, [outcap], []⟩
  | .decFinal outcap => ⟨makeWord 0x06 0, [outcap], []⟩
  | .zeroize => ⟨makeWord 0x07 0, [], []⟩

theorem frameParts_bytes (i : Instr) : (frameParts i).bytes = encode i := by
  cases i <;> simp only [frameParts, RawFrame.bytes, encode, makeFrame, List.flatMap_cons,
    List.flatMap_nil, be64_toNat_ofNat]

/-- The argument words and the payload are those R72 gives the command's OP. -/
theorem frameParts_whole {i : Instr} (h : i.wf = true) : (frameParts i).Whole := by
  cases i with
  | nop | encFinal | decFinal | zeroize =>
    exact ⟨by simp [frameParts, nargs], by simp [frameParts, payloadLen]⟩
  | initEnc tl iv aad | initDec tl iv aad =>
    obtain ⟨hiv, haad⟩ : fitsArg iv = true ∧ fitsArg aad = true := by simpa [Instr.wf] using h
    refine ⟨by simp [frameParts, nargs], ?_⟩
    simp only [frameParts, opField_makeWord, List.getD_cons_zero, List.getD_cons_succ,
      toNat_lengthWord hiv, toNat_lengthWord haad, List.length_append]
    rfl
  | encUpdate chunk | decUpdate chunk =>
    refine ⟨by simp [frameParts, nargs], ?_⟩
    simp only [frameParts, opField_makeWord, List.getD_cons_zero,
      toNat_lengthWord (bs := chunk) h]
    rfl

/-- The word, the first argument word and the payload of a command's frame give the command back
(R73). -/
theorem decodeCommand_frameParts {i : Instr} (h : i.wf = true) {a₀ : Nat}
    (ha : 0 < (frameParts i).args.length → a₀ = ((frameParts i).args.getD 0 0).toNat) :
    decodeCommand (frameParts i).word a₀ (frameParts i).payload = .ok i := by
  cases i with
  | nop | zeroize | encUpdate | decUpdate => simp [frameParts, decodeCommand]
  | encFinal outcap | decFinal outcap =>
    obtain rfl : a₀ = outcap.toNat := ha Nat.one_pos
    simp [frameParts, decodeCommand]
  | initEnc tl iv aad | initDec tl iv aad =>
    have hiv : fitsArg iv = true := (Bool.and_eq_true_iff.mp h).1
    obtain rfl : a₀ = iv.length := (ha Nat.two_pos).trans (toNat_lengthWord hiv)
    simp [frameParts, decodeCommand]

/-- The frame of a well-formed command is read as the command, whatever follows (R74). -/
theorem parseFrame_encode {i : Instr} (h : i.wf = true) (rest : List Byte) :
    parseFrame (encode i ++ rest) = .command i rest := by
  rw [← frameParts_bytes, parseFrame_frame rest (frameParts_whole h),
    decodeCommand_frameParts h (argWord_frame _ rest)]
  rfl

/-! ## Frames are served in order -/

theorem step_of_command {s : State} {i : Instr} {rest : List Byte} (hr : s.resetPending = false)
    (hf : parseFrame s.rx = .command i rest) : step s = exec i { s with rx := rest } := by
  rw [step, if_neg (by simp [hr]), hf]

/-- Settles O6: the frame is read as the command. -/
theorem stepRunsTheDecodedCommand : Obligations.StepRunsTheDecodedCommand := by
  intro s i rest hwf hr hx
  exact step_of_command hr (hx ▸ parseFrame_encode hwf rest)

/-- The state after a command (`exec_eq`). -/
def after (i : Instr) (s : State) : State :=
  s.answered (replyOf i s).ctx (replyOf i s).err (replyOf i s).out

theorem exec_eq_after (i : Instr) (s : State) : exec i s = .next (after i s) := exec_eq i s

/-- A command neither reads nor changes the bytes received after its frame (R74). -/
theorem after_rx (i : Instr) (s : State) (bs : List Byte) :
    after i { s with rx := bs } = { after i s with rx := bs } := by
  cases i <;> rfl

@[simp] theorem after_resetPending (i : Instr) (s : State) :
    (after i s).resetPending = s.resetPending := rfl

theorem execAll_cons (i : Instr) (is : List Instr) (s : State) :
    execAll (i :: is) s = execAll is (after i s) := by
  rw [execAll, exec_eq_after]

theorem steps_succ_of_next {s t : State} (h : step s = .next t) (n : Nat) :
    steps (n + 1) s = steps n t := by
  rw [steps, h]

/-- Settles O7, by induction on the commands: the first step leaves the frames of the rest, and the
command it runs does not see them. -/
theorem framesAreServedInOrder : Obligations.FramesAreServedInOrder := by
  intro s is rest hwf hr hx
  induction is generalizing s with
  | nil =>
    obtain rfl : rest = s.rx := hx.symm
    rfl
  | cons i is ih =>
    obtain ⟨hi, his⟩ := List.forall_mem_cons.mp hwf
    rw [List.flatMap_cons, List.append_assoc] at hx
    have hstep : step s = .next (after i { s with rx := is.flatMap encode ++ rest }) :=
      (stepRunsTheDecodedCommand s i _ hi hr hx).trans (exec_eq_after i _)
    calc steps (is.length + 1) s
        = steps is.length (after i { s with rx := is.flatMap encode ++ rest }) :=
          steps_succ_of_next hstep is.length
      _ = execAll is { after i { s with rx := is.flatMap encode ++ rest } with rx := rest } :=
          ih _ his ((after_resetPending i _).trans hr) rfl
      _ = execAll is (after i { s with rx := rest }) := congrArg _ (after_rx i _ rest).symm
      _ = execAll (i :: is) { s with rx := rest } := (execAll_cons i is _).symm

/-! ## ENC_UPDATE carries over the bytes short of a block (R150) -/

/-- The whole blocks at the head of a string. -/
def wholeBlocks (bs : List Byte) : List Block := (chunks (bs.length / 16) bs).map blockOf

/-- The bytes after the whole blocks. -/
def leftover (bs : List Byte) : List Byte := bs.drop (16 * (bs.length / 16))

theorem leftover_length_lt (bs : List Byte) : (leftover bs).length < 16 := by
  rw [leftover, List.length_drop]
  omega

/-- After whole blocks, the pieces of a string are those blocks and the pieces of what follows. -/
theorem wholeBlocks_append_of_length {ws : List Byte} {m : Nat} (hw : ws.length = 16 * m)
    (bs : List Byte) : wholeBlocks (ws ++ bs) = (chunks m ws).map blockOf ++ wholeBlocks bs := by
  have hlen : (ws ++ bs).length / 16 = m + bs.length / 16 := by
    rw [List.length_append]
    omega
  rw [wholeBlocks, hlen, chunks_append _ _ _ _ hw, List.map_append, wholeBlocks]

theorem leftover_append_of_length {ws : List Byte} {m : Nat} (hw : ws.length = 16 * m)
    (bs : List Byte) : leftover (ws ++ bs) = leftover bs := by
  have hlen : 16 * ((ws ++ bs).length / 16) = ws.length + 16 * (bs.length / 16) := by
    rw [List.length_append]
    omega
  rw [leftover, hlen, List.drop_length_add_append, leftover]

/-- A string is its whole blocks and the bytes after them. -/
theorem take_append_leftover (bs : List Byte) :
    bs.take (16 * (bs.length / 16)) ++ leftover bs = bs :=
  List.take_append_drop _ bs

theorem take_wholeBlocks_length (bs : List Byte) :
    (bs.take (16 * (bs.length / 16))).length = 16 * (bs.length / 16) := by
  rw [List.length_take]
  omega

/-- More bytes add the blocks that they make with the bytes left over. -/
theorem wholeBlocks_append (as bs : List Byte) :
    wholeBlocks (as ++ bs) = wholeBlocks as ++ wholeBlocks (leftover as ++ bs) := by
  have h := wholeBlocks_append_of_length (take_wholeBlocks_length as) (leftover as ++ bs)
  rwa [← List.append_assoc, take_append_leftover, chunks_take] at h

theorem leftover_append (as bs : List Byte) :
    leftover (as ++ bs) = leftover (leftover as ++ bs) := by
  have h := leftover_append_of_length (take_wholeBlocks_length as) (leftover as ++ bs)
  rwa [← List.append_assoc, take_append_leftover] at h

section
variable (E : Block → Block) (c : Context)

/-- The walk over two runs of blocks is one walk after the other (R151). -/
theorem encryptBlocks_append (ps qs : List Block) :
    encryptBlocks E c (ps ++ qs) =
      ((encryptBlocks E (encryptBlocks E c ps).1 qs).1,
        (encryptBlocks E c ps).2 ++ (encryptBlocks E (encryptBlocks E c ps).1 qs).2) := by
  induction ps generalizing c with
  | nil => rfl
  | cons p ps ih => simp only [List.cons_append, encryptBlocks, ih, List.append_assoc]

/-- The walk does not read REM, and keeps it (R151). -/
theorem encryptBlocks_setRem (t : List Byte) (ps : List Block) :
    encryptBlocks E (c.setRem t) ps =
      ((encryptBlocks E c ps).1.setRem t, (encryptBlocks E c ps).2) := by
  induction ps generalizing c with
  | nil => rfl
  | cons p ps ih =>
    have hstep (x : Block) : (c.setRem t).stepBlock x 16 = (c.stepBlock x 16).setRem t := rfl
    have hkey : (c.setRem t).keystream E = c.keystream E := rfl
    simp only [encryptBlocks, hstep, hkey, ih]

@[simp] theorem setRem_setRem (t u : List Byte) : (c.setRem t).setRem u = c.setRem u := rfl

theorem remBytes_setRem {t : List Byte} (ht : t.length < 16) : (c.setRem t).remBytes = t :=
  remBytes_of_rem_remLen ht rfl rfl

variable {c}

/-- ENC_UPDATE in ENCRYPTING: the whole blocks of REM and the chunk are encrypted, and the bytes
left over are the new REM (R150). -/
theorem encUpdateReply_eq (chunk : List Byte) (hp : c.phase = .encrypting) :
    encUpdateReply E chunk c =
      reply ((encryptBlocks E c (wholeBlocks (c.remBytes ++ chunk))).1.setRem
          (leftover (c.remBytes ++ chunk)))
        (encryptBlocks E c (wholeBlocks (c.remBytes ++ chunk))).2 := by
  rw [encUpdateReply, if_neg (by simp [hp])]
  rfl

/-- An ENC_UPDATE in two parts (R54). -/
theorem encUpdateReply_append (a b : List Byte) (hp : c.phase = .encrypting) :
    ∃ c₁ c₂ out₁ out₂,
      encUpdateReply E a c = reply c₁ out₁ ∧ encUpdateReply E b c₁ = reply c₂ out₂ ∧
      encUpdateReply E (a ++ b) c = reply c₂ (out₁ ++ out₂) := by
  refine ⟨_, _, _, _, encUpdateReply_eq E a hp, encUpdateReply_eq E b ?_, ?_⟩
  · simp [hp]
  · rw [encUpdateReply_eq E _ hp, ← List.append_assoc, wholeBlocks_append (c.remBytes ++ a),
      leftover_append (c.remBytes ++ a), encryptBlocks_append,
      remBytes_setRem _ (leftover_length_lt _), encryptBlocks_setRem, setRem_setRem]

end

/-- The registers and the output after ENC_UPDATE, from its reply. -/
theorem exec_encUpdate_of_reply {s : State} {chunk out : List Byte} {c : Context}
    (h : encUpdateReply s.cipher chunk s.ctx = reply c out) :
    exec (.encUpdate chunk) s = .next (s.answered c .ok out) := by
  rw [exec_eq, replyOf, h]
  rfl

/-- Settles O26: the blocks of the second part begin with the bytes the first part left over. -/
theorem encUpdateSplitsJoin : Obligations.EncUpdateSplitsJoin := by
  intro s a b hp
  obtain ⟨c₁, c₂, out₁, out₂, ha, hb, hab⟩ := encUpdateReply_append s.cipher a b hp
  exact ⟨c₁, c₂, out₁, out₂, exec_encUpdate_of_reply ha, exec_encUpdate_of_reply hb,
    exec_encUpdate_of_reply hab⟩

/-! ## DEC_UPDATE appends (R170) -/

/-- The registers with a chunk appended to BUF. -/
def appendBuf (c : Context) (chunk : List Byte) : Context :=
  { c with buf := c.buf ++ chunk, bufLen := c.bufLen + BitVec.ofNat 64 chunk.length }

theorem appendBuf_append (c : Context) (a b : List Byte) :
    appendBuf (appendBuf c a) b = appendBuf c (a ++ b) := by
  simp only [appendBuf, List.append_assoc, List.length_append, BitVec.ofNat_add, BitVec.add_assoc]

/-- Where the list of BUF holds its valid bytes (R33), a chunk that fits is appended to it. -/
theorem exec_decUpdate_of_fits {s : State} {chunk : List Byte} (hp : s.ctx.phase = .decrypting)
    (hv : s.ctx.buf.length = s.ctx.bufLen.toNat)
    (hfit : s.ctx.bufLen.toNat + chunk.length ≤ Config.ptBufBytes) :
    exec (.decUpdate chunk) s = .next (s.answered (appendBuf s.ctx chunk) .ok []) := by
  rw [exec_eq, replyOf, decUpdateReply_of_fits hp hfit, ← hv, bufWrite_at_end]
  rfl

/-- Settles O31: appending two parts is appending their join. -/
theorem decUpdateSplitsJoin : Obligations.DecUpdateSplitsJoin := by
  intro s a b hinv hp hfit
  have hv := hinv.buf_valid
  have hlen : (appendBuf s.ctx a).bufLen.toNat = s.ctx.bufLen.toNat + a.length :=
    toNat_bufLen_add (by omega)
  have hv₁ : (appendBuf s.ctx a).buf.length = (appendBuf s.ctx a).bufLen.toNat := by
    rw [hlen, ← hv]
    exact List.length_append
  refine ⟨appendBuf s.ctx a, appendBuf s.ctx (a ++ b), exec_decUpdate_of_fits hp hv (by omega), ?_,
    exec_decUpdate_of_fits hp hv (by rw [List.length_append]; omega), rfl⟩
  rw [← appendBuf_append]
  exact exec_decUpdate_of_fits hp hv₁ (by rw [answered_ctx, hlen]; exact hfit)

end Sys2Proof.Machine
end

section
/-! PROOFS (30_encoding.md). What a legal command word decodes to, said once as `Decodes`. Bytes
enough for their header begin with a whole frame, so that a command read is the one encoded (R70 to
R73), an illegal word is answered whole (R75), and part of a frame waits (R74). Then the effects of
the error codes (R202). -/

namespace Sys2Proof

/-! ## Legal and illegal command words (R75) -/

/-- TL, the first argument word, the payload and OP of a legal frame, and its command (R73). -/
inductive Decodes (tl : BitVec 5) (a₀ : Nat) (payload : List Byte) : BitVec 8 → Instr → Prop
  | nop (ht : tl = 0) : Decodes tl a₀ payload 0 .nop
  | initEnc : Decodes tl a₀ payload 1 (.initEnc tl (payload.take a₀) (payload.drop a₀))
  | initDec : Decodes tl a₀ payload 2 (.initDec tl (payload.take a₀) (payload.drop a₀))
  | encUpdate (ht : tl = 0) : Decodes tl a₀ payload 3 (.encUpdate payload)
  | decUpdate (ht : tl = 0) : Decodes tl a₀ payload 4 (.decUpdate payload)
  | encFinal (ht : tl = 0) : Decodes tl a₀ payload 5 (.encFinal (BitVec.ofNat 64 a₀))
  | decFinal (ht : tl = 0) : Decodes tl a₀ payload 6 (.decFinal (BitVec.ofNat 64 a₀))
  | zeroize (ht : tl = 0) : Decodes tl a₀ payload 7 .zeroize

/-- The conditions (a), (b) and (c) of R75. -/
def IllegalCommandWord (cw : Word32) : Prop :=
  8 ≤ (opField cw).toNat ∨ rsvField cw ≠ 0 ∨
    ((opField cw).toNat ≠ 1 ∧ (opField cw).toNat ≠ 2 ∧ tlField cw ≠ 0)

section
variable {cw : Word32} {a₀ : Nat} {payload : List Byte}

theorem decodes_of_decodeCommand {i : Instr} (h : decodeCommand cw a₀ payload = .ok i) :
    rsvField cw = 0 ∧ Decodes (tlField cw) a₀ payload (opField cw) i := by
  have hop : opField cw = BitVec.ofNat 8 (opField cw).toNat := by simp
  simp only [decodeCommand] at h
  split at h
  case isTrue => cases h
  case isFalse hr =>
    refine ⟨not_not.mp hr, ?_⟩
    rw [hop]
    generalize (opField cw).toNat = op at h
    by_cases ht : tlField cw = 0
    · simp only [ht, if_true] at h ⊢
      split at h <;> cases h
      exacts [.nop rfl, .initEnc, .initDec, .encUpdate rfl, .decUpdate rfl, .encFinal rfl,
        .decFinal rfl, .zeroize rfl]
    · simp only [ht, if_false] at h
      split at h <;> cases h
      exacts [.initEnc, .initDec]

/-- A legal frame's word meets none of R75's conditions. -/
theorem not_illegal_of_decodeCommand {i : Instr} (h : decodeCommand cw a₀ payload = .ok i) :
    ¬ IllegalCommandWord cw := by
  obtain ⟨hr, hd⟩ := decodes_of_decodeCommand h
  rw [IllegalCommandWord, hr]
  generalize opField cw = op at hd
  generalize tlField cw = tl at hd
  cases hd with
  | initEnc | initDec => simp
  | nop ht | encUpdate ht | decUpdate ht | encFinal ht | decFinal ht | zeroize ht => simp [ht]

/-- A word that the decoder refuses meets one of R75's conditions. -/
theorem illegal_of_decodeCommand {why : IllegalWord}
    (h : decodeCommand cw a₀ payload = .error why) : IllegalCommandWord cw := by
  by_contra hl
  simp only [IllegalCommandWord, not_or, not_and, not_not, Nat.not_le] at hl
  obtain ⟨hop, hr, ht⟩ := hl
  simp only [decodeCommand, hr, ne_eq, not_true_eq_false, if_false] at h
  generalize (opField cw).toNat = op at hop ht h
  split at h
  case h_2 | h_3 => cases h
  case h_9 => interval_cases op <;> contradiction
  -- Outside INIT, TL is zero, and the decoder answers the command.
  all_goals simp [ht] at h

end

/-- A word with RSV = 0 is made of its OP and TL (R71). -/
theorem makeWord_fields {cw : Word32} (h : rsvField cw = 0) :
    makeWord (opField cw) (tlField cw) = cw := by
  rw [makeWord, ← h, rsvField, tlField, opField,
    BitVec.extractLsb'_append_extractLsb'_eq_extractLsb' (start₁ := 8) (by rfl),
    BitVec.extractLsb'_append_extractLsb'_eq_extractLsb' (start₁ := 0) (by rfl)]
  exact BitVec.extractLsb'_eq_self

/-- Only a frame with arguments is decoded by its first argument word. -/
theorem decodeCommand_congr {cw : Word32} {a₀ b₀ : Nat} (h : 0 < nargs (opField cw) → a₀ = b₀)
    (payload : List Byte) : decodeCommand cw a₀ payload = decodeCommand cw b₀ payload := by
  unfold nargs at h
  simp only [decodeCommand]
  split
  case isTrue => rfl
  case isFalse => split <;> simp_all

/-! ## Words read from bytes -/

theorem beBytes_beNat_of_length {bs : List Byte} {n : Nat} (h : bs.length = n) :
    beBytes n (beNat bs) = bs := h ▸ beBytes_beNat bs

/-- The command word encodes to the bytes it was read from (R53). -/
theorem be32_commandWord {bs : List Byte} (h : 4 ≤ bs.length) :
    be32 (commandWord bs).toNat = bs.take 4 := by
  rw [commandWord, BitVec.toNat_ofNat, be32, show 2 ^ 32 = 256 ^ 4 from rfl, beBytes_mod]
  exact beBytes_beNat_of_length (List.length_take_of_le h)

/-- Bytes enough for `n` words are the encoding of `n` words (R53). -/
theorem exists_words (n : Nat) {bs : List Byte} (h : 8 * n ≤ bs.length) :
    ∃ args : List Word64, args.length = n ∧
      args.flatMap (fun a => be64 a.toNat) = bs.take (8 * n) := by
  induction n generalizing bs with
  | zero => exact ⟨[], rfl, rfl⟩
  | succ n ih =>
    obtain ⟨args, hlen, hbytes⟩ := ih (bs := bs.drop 8) (by rw [List.length_drop]; omega)
    refine ⟨BitVec.ofNat 64 (beNat (bs.take 8)) :: args, congrArg (· + 1) hlen, ?_⟩
    rw [List.flatMap_cons, hbytes, be64_toNat_ofNat, Nat.mul_succ, Nat.add_comm, List.take_add,
      be64, beBytes_beNat_of_length (List.length_take_of_le (by omega))]

end Sys2Proof

namespace Sys2Proof.Machine

/-! ## A frame read is the frame of its command -/

theorem RawFrame.bytes_length (f : RawFrame) :
    f.bytes.length = 4 + 8 * f.args.length + f.payload.length := by
  rw [RawFrame.bytes_eq, List.length_append, List.length_append, be32_length, args_bytes_length]

/-- The first bytes, as many as the header asks for, are a command word, its argument words and a
payload (R70). -/
theorem exists_parts {bs : List Byte} (h : frameLen bs ≤ bs.length) :
    ∃ f : RawFrame, f.word = commandWord bs ∧ f.args.length = nargs (opField (commandWord bs)) ∧
      f.bytes = bs.take (frameLen bs) := by
  have h4 := four_le_headerLen (opField (commandWord bs))
  have hh := headerLen_le_frameLen bs
  obtain ⟨args, hargs, hwords⟩ := exists_words (nargs (opField (commandWord bs))) (bs := bs.drop 4)
    (by rw [headerLen] at hh; rw [List.length_drop]; omega)
  have hheader : be32 (commandWord bs).toNat ++ args.flatMap (fun a => be64 a.toNat) =
      (bs.take (frameLen bs)).take (headerLen (opField (commandWord bs))) := by
    rw [be32_commandWord (by omega), hwords, ← List.take_add, ← headerLen, List.take_take,
      min_eq_left hh]
  refine ⟨⟨commandWord bs, args,
    (bs.take (frameLen bs)).drop (headerLen (opField (commandWord bs)))⟩, rfl, hargs, ?_⟩
  rw [RawFrame.bytes_eq, hheader, List.take_append_drop]

/-- Bytes as many as their header asks for begin with a whole frame (R70, R74). -/
theorem exists_frame {bs : List Byte} (h : frameLen bs ≤ bs.length) :
    ∃ f : RawFrame, f.Whole ∧ bs = f.bytes ++ bs.drop (frameLen bs) := by
  obtain ⟨f, hword, hargs, hbytes⟩ := exists_parts h
  have hbs : bs = f.bytes ++ bs.drop (frameLen bs) := by rw [hbytes, List.take_append_drop]
  have harg {k : Nat} (hk : k < f.args.length) : argWord bs k = (f.args.getD k 0).toNat :=
    (congrArg (argWord · k) hbs).trans (argWord_frame f _ hk)
  have hpay : f.payload.length =
      payloadLen (opField (commandWord bs)) (argWord bs 0) (argWord bs 1) := by
    have hlen := f.bytes_length
    rw [hbytes, List.length_take_of_le h, frameLen, headerLen] at hlen
    omega
  refine ⟨f, ⟨hword ▸ hargs, ?_⟩, hbs⟩
  rw [hpay, hword]
  exact payloadLen_congr (fun h₀ => harg (by omega)) (fun h₁ => harg (by omega))

/-- A whole frame is decoded from its own word, arguments and payload (R74). -/
theorem parseFrame_whole {f : RawFrame} (hf : f.Whole) (rest : List Byte) :
    parseFrame (f.bytes ++ rest) =
      frameOf (decodeCommand f.word (f.args.getD 0 0).toNat f.payload) rest := by
  rw [parseFrame_frame rest hf, decodeCommand_congr fun h => argWord_frame f rest (hf.1 ▸ h)]

/-- A legal whole frame is made of the parts of the command it is decoded to, and the lengths it
gives fit their words (R71 to R73). -/
theorem frameParts_of_decodeCommand {f : RawFrame} (hf : f.Whole) {i : Instr}
    (h : decodeCommand f.word (f.args.getD 0 0).toNat f.payload = .ok i) :
    i.wf = true ∧ frameParts i = f := by
  obtain ⟨cw, args, payload⟩ := f
  obtain ⟨hargs, hpay⟩ := hf
  obtain ⟨hr, hd⟩ := decodes_of_decodeCommand h
  have hw := makeWord_fields hr
  dsimp only at hargs hpay hd hw
  generalize opField cw = op at hargs hpay hd hw
  generalize tlField cw = tl at hd hw
  subst hw
  cases hd with
  | nop ht | zeroize ht =>
    obtain rfl := List.length_eq_zero_iff.mp hargs
    obtain rfl := List.length_eq_zero_iff.mp hpay
    exact ⟨rfl, by rw [ht]; rfl⟩
  | encFinal ht | decFinal ht =>
    obtain ⟨a, rfl⟩ := List.length_eq_one_iff.mp hargs
    obtain rfl := List.length_eq_zero_iff.mp hpay
    exact ⟨rfl, by simp [frameParts, ht]⟩
  | encUpdate ht | decUpdate ht =>
    obtain ⟨a, rfl⟩ := List.length_eq_one_iff.mp hargs
    obtain hpay : payload.length = a.toNat := hpay
    exact ⟨decide_eq_true (hpay ▸ a.isLt), by simp [frameParts, ht, hpay]⟩
  | initEnc | initDec =>
    obtain ⟨a, b, rfl⟩ := List.length_eq_two.mp hargs
    obtain hpay : payload.length = a.toNat + b.toNat := hpay
    have ha := a.isLt
    have hb := b.isLt
    simp [Instr.wf, fitsArg, frameParts, hpay, ha, hb]

/-- Settles O2: the frame of a command is whole and decodes to it. -/
theorem encodedCommandDecodesBack : Obligations.EncodedCommandDecodesBack :=
  fun _ rest hwf => parseFrame_encode hwf rest

/-- Settles O3: the bytes begin with a whole frame, and its parts are those of the command. -/
theorem decodedFrameIsItsEncoding : Obligations.DecodedFrameIsItsEncoding := by
  intro bs rest i h
  have hlen : frameLen bs ≤ bs.length := by
    by_contra hshort
    rw [parseFrame_eq, if_pos (not_le.mp hshort)] at h
    cases h
  obtain ⟨f, hf, hbs⟩ := exists_frame hlen
  generalize bs.drop (frameLen bs) = rest' at hbs
  subst hbs
  rw [parseFrame_whole hf] at h
  cases hd : decodeCommand f.word (f.args.getD 0 0).toNat f.payload with
  | error why =>
    rw [hd] at h
    cases h
  | ok j =>
    rw [hd] at h
    obtain ⟨rfl, rfl⟩ := Frame.command.inj h
    obtain ⟨hwf, rfl⟩ := frameParts_of_decodeCommand hf hd
    exact ⟨hwf, by rw [frameParts_bytes]⟩

/-! ## Illegal words and unfinished frames -/

theorem step_of_illegal {s : State} {why : IllegalWord} {rest : List Byte}
    (hr : s.resetPending = false) (hf : parseFrame s.rx = .illegal why rest) :
    step s = .next (illegalCommand { s with rx := rest }) := by
  rw [step, if_neg (by simp [hr]), hf]

theorem step_of_incomplete {s : State} (hr : s.resetPending = false)
    (hf : parseFrame s.rx = .incomplete) : step s = takeMove s := by
  rw [step, if_neg (by simp [hr]), hf]

/-- Settles O4: the decoder answers a command for a whole frame just where R75 allows its word. -/
theorem illegalWordAnswersIllegalCmd : Obligations.IllegalWordAnswersIllegalCmd := by
  intro s cw args payload rest hargs hpay hr hx
  have hf : RawFrame.Whole ⟨cw, args, payload⟩ := ⟨hargs, hpay⟩
  have hparse : parseFrame s.rx =
      frameOf (decodeCommand cw (args.getD 0 0).toNat payload) rest := by
    rw [← parseFrame_whole hf, hx, RawFrame.bytes, List.append_assoc, List.append_assoc]
  cases hd : decodeCommand cw (args.getD 0 0).toNat payload with
  | error why =>
    rw [hd] at hparse
    exact ⟨fun _ => step_of_illegal hr hparse, fun hl => absurd (illegal_of_decodeCommand hd) hl⟩
  | ok i =>
    rw [hd] at hparse
    exact ⟨fun hi => absurd hi (not_illegal_of_decodeCommand hd), fun _ =>
      ⟨i, (frameParts_of_decodeCommand hf hd).1, hparse, step_of_command hr hparse⟩⟩

/-- Settles O5: part of a frame is no frame, so the step is the host's move. -/
theorem unfinishedFrameWaits : Obligations.UnfinishedFrameWaits := by
  intro s cw args payload p q hargs hpay hpq hq hx
  have hf : RawFrame.Whole ⟨cw, args, payload⟩ := ⟨hargs, hpay⟩
  have hparse : parseFrame p = .incomplete := parseFrame_part hf hpq.symm hq
  have hmove (hr : s.resetPending = false) : step s = takeMove s :=
    step_of_incomplete hr (hx ▸ hparse)
  refine ⟨hparse, fun hm => ?_, fun bs t hm hsync => ?_⟩
  · rw [hmove (by rw [State.resetPending, hm]), takeMove, hm]
  · rw [hmove (by rw [State.resetPending, hm]), takeMove, hm]
    simp [hsync, hx]

/-! ## Errors (R86, R202, R203) -/

/-- DEC_FINAL emits only what it has verified (R86, R175). -/
theorem decFinalReply_out_of_err {E : Block → Block} {outcap : Word64} {c : Context}
    (h : (decFinalReply E outcap c).err ≠ .ok) : (decFinalReply E outcap c).out = [] := by
  obtain ⟨-, hr⟩ | ⟨-, -, hr⟩ | ⟨-, -, -, hr⟩ | ⟨-, -, _, w, -, -, -, hr⟩ :=
    decFinalReply_cases E outcap c <;> rw [hr] at h ⊢
  · rfl
  · rfl
  · rfl
  · split at h
    · exact absurd rfl h
    · rw [if_neg ‹_›, replyErr_out]

/-- An error of a command other than DEC_FINAL emits nothing (R86). -/
theorem Effect.out_of_err {E : Block → Block} {c : Context} {i : Instr} {r : Reply}
    (he : Effect E c i r) (hd : ∀ n, i ≠ .decFinal n) (h : r.err ≠ .ok) : r.out = [] := by
  cases he with
  | nop | zeroize | init | encUpdate | decUpdate | encFinal => exact absurd rfl h
  | sequence | initRefused | overflow | encFinalNoRoom | decFinalNoRoom => rfl
  | decFinal => exact absurd rfl (hd _)

/-- An error emits nothing (R86). -/
theorem replyOf_out_of_err (i : Instr) (s : State) (h : (replyOf i s).err ≠ .ok) :
    (replyOf i s).out = [] := by
  by_cases hd : ∃ n, i = .decFinal n
  · obtain ⟨n, rfl⟩ := hd
    exact decFinalReply_out_of_err h
  · exact (replyOf_effect i s).out_of_err (not_exists.mp hd) h

/-- The registers after each error (R202), and the codes no command answers (R203). -/
theorem Effect.of_error {E : Block → Block} {c : Context} {i : Instr} {r : Reply}
    (he : Effect E c i r) :
    (r.err = .sequence ∨ r.err = .invalidParam ∨ r.err = .bufferTooSmall → r.ctx = c) ∧
    (r.err = .outOfMemory → r.ctx = { Context.reset with phase := .failed }) ∧
    (r.err = .authFailed → r.ctx.phase = .done ∧ r.ctx.buf = [] ∧ r.ctx.bufLen = 0 ∧
      r.ctx.tlen = c.tlen ∧ r.ctx.h = c.h ∧ r.ctx.j0 = c.j0 ∧ r.ctx.aadLen = c.aadLen ∧
      r.ctx.rem = c.rem ∧ r.ctx.remLen = c.remLen) ∧
    r.err ≠ .unsupportedImpl ∧ r.err ≠ .illegalCmd := by
  cases he with
  | nop | zeroize | init | encUpdate | decUpdate | encFinal | sequence | initRefused | overflow
  | encFinalNoRoom | decFinalNoRoom => simp
  | decFinal _ _ _ _ he => obtain rfl | rfl := he <;> simp

/-- Settles O16, from the effects of the commands and the output of each reply. -/
theorem errorsHaveTheirEffects : Obligations.ErrorsHaveTheirEffects := fun i s =>
  ⟨_, _, _, exec_eq i s, replyOf_out_of_err i s, (replyOf_effect i s).of_error⟩

/-! ## R89 -/

/-- Settles O1: the decoder and the encoder run on the written-out frames. -/
theorem writtenOutFramesDecode : Obligations.WrittenOutFramesDecode := by
  unfold Obligations.WrittenOutFramesDecode
  decide +kernel

end Sys2Proof.Machine
end

section
/-! PROOFS (40_ghash_counter.md). The multiplier is linear and commutes with multiplication by `x`,
which gives the field laws (R102) and the carry-less form (R101). -/

namespace Sys2Proof.Machine

/-! ## The multiplier is linear (R100) -/

/-- Adding a term when a sum of two bits is set is adding it for each bit that is set. -/
theorem ite_bxor {w : Nat} (a b : Bool) (r : BitVec w) :
    (if (a ^^ b) = true then r else 0) =
      (if a = true then r else 0) ^^^ (if b = true then r else 0) := by
  cases a <;> cases b <;> simp

/-- An addition under a condition is the addition of a conditional term. -/
theorem ite_xor {w : Nat} (b : Bool) (r t : BitVec w) :
    (if b = true then r ^^^ t else r) = r ^^^ (if b = true then t else 0) := by
  cases b <;> simp

/-- Multiplication by `x` is linear (R100). -/
theorem gfMulX_xor (v w : Block) : gfMulX (v ^^^ w) = gfMulX v ^^^ gfMulX w := by
  simp only [gfMulX, ite_xor, BitVec.getLsbD_xor, ite_bxor, BitVec.ushiftRight_xor_distrib]
  ac_rfl

theorem gfMul_eq (x y : Block) : gfMul x y = gfLoop x 128 0 y := by
  rw [gfMul]

/-- The loop is linear in its two registers (R100). -/
theorem gfLoop_xor (x : Block) (n : Nat) (z z' v v' : Block) :
    gfLoop x n (z ^^^ z') (v ^^^ v') = gfLoop x n z v ^^^ gfLoop x n z' v' := by
  induction n generalizing z z' v v' with
  | zero => rfl
  | succ n ih =>
    simp only [gfLoop, gfMulX_xor, ← ih]
    cases x.getLsbD n
    · rfl
    · congr 1
      simp only [if_true]
      ac_rfl

/-- A linear map that commutes with multiplication by `x` commutes with the loop. -/
theorem map_gfLoop {f : Block → Block} (hxor : ∀ a b, f (a ^^^ b) = f a ^^^ f b)
    (hx : ∀ v, f (gfMulX v) = gfMulX (f v)) (y : Block) (n : Nat) (z v : Block) :
    f (gfLoop y n z v) = gfLoop y n (f z) (f v) := by
  induction n generalizing z v with
  | zero => rfl
  | succ n ih => rw [gfLoop, gfLoop, ih, hx, apply_ite f, hxor]

theorem gfMulX_zero : gfMulX 0 = 0 := by decide +kernel

theorem gfMul_xor_right (x y w : Block) : gfMul x (y ^^^ w) = gfMul x y ^^^ gfMul x w := by
  simp only [gfMul_eq]
  exact gfLoop_xor x 128 0 0 y w

theorem gfMul_zero (x : Block) : gfMul x 0 = 0 := by
  have h := gfMul_xor_right x 0 0
  rwa [BitVec.xor_self, BitVec.xor_self] at h

theorem gfMul_gfMulX (x y : Block) : gfMul x (gfMulX y) = gfMulX (gfMul x y) := by
  simp only [gfMul_eq]
  rw [map_gfLoop gfMulX_xor (fun _ => rfl), gfMulX_zero]

/-- Two products by `x` and by `y` may be taken in either order. -/
theorem gfMul_left_comm (x y w : Block) : gfMul x (gfMul y w) = gfMul y (gfMul x w) := by
  rw [gfMul_eq y, map_gfLoop (gfMul_xor_right x) (gfMul_gfMulX x), gfMul_zero, gfMul_eq y]

/-! ## The identity element and the laws (R102) -/

/-- One step from `x^i` to `x^(i+1)` (the coefficient of `x^i` is bit `127 - i`). -/
theorem gfMulX_twoPow (n : Nat) (hn : n + 1 < 128) :
    gfMulX (BitVec.twoPow 128 (n + 1)) = BitVec.twoPow 128 n := by
  have h0 : (BitVec.twoPow 128 (n + 1)).getLsbD 0 = false := by simp
  rw [gfMulX, h0, if_neg Bool.false_ne_true]
  ext i hi
  rw [BitVec.getElem_ushiftRight, BitVec.getLsbD_twoPow, BitVec.getElem_twoPow, decide_eq_true hn,
    Bool.true_and, decide_eq_decide]
  omega

theorem getLsbD_ite_xor_twoPow (x z : Block) {n : Nat} (hn : n < 128) (k : Nat) :
    (if x.getLsbD n = true then z ^^^ BitVec.twoPow 128 n else z).getLsbD k =
      (z.getLsbD k ^^ (decide (k = n) && x.getLsbD k)) := by
  rw [ite_xor, BitVec.getLsbD_xor]
  by_cases hk : k = n
  · subst hk
    cases x.getLsbD k <;> simp [hn]
  · cases x.getLsbD n <;> simp [BitVec.getLsbD_twoPow, hk, Ne.symm hk]

/-- From `x^(127-n)` the loop adds the low bits of `X` to Z. -/
theorem getLsbD_gfLoop_twoPow (x : Block) {n : Nat} (hn : n < 128) (z : Block) (k : Nat) :
    (gfLoop x (n + 1) z (BitVec.twoPow 128 n)).getLsbD k =
      (z.getLsbD k ^^ (decide (k ≤ n) && x.getLsbD k)) := by
  induction n generalizing z with
  | zero =>
    rw [gfLoop, gfLoop, getLsbD_ite_xor_twoPow x z hn]
    simp
  | succ n ih =>
    rw [gfLoop, gfMulX_twoPow n hn, ih (by omega), getLsbD_ite_xor_twoPow x z hn, Bool.xor_assoc]
    congr 1
    by_cases hk : k = n + 1
    · simp [hk]
    · simp [hk, Nat.le_succ_iff]

/-- `80 00 .. 00` is `x^0` (R102). -/
theorem blockOf_one : blockOf [0x80] = BitVec.twoPow 128 127 := by decide +kernel

theorem gfMul_one (x : Block) : gfMul x (blockOf [0x80]) = x := by
  refine BitVec.eq_of_getLsbD_eq fun k hk => ?_
  rw [gfMul_eq, blockOf_one, getLsbD_gfLoop_twoPow x (by decide)]
  simp [show k ≤ 127 by omega]

theorem gfMul_comm (x y : Block) : gfMul x y = gfMul y x := by
  have h := gfMul_left_comm x y (blockOf [0x80])
  rwa [gfMul_one, gfMul_one] at h

theorem gfMul_assoc (x y w : Block) : gfMul (gfMul x y) w = gfMul x (gfMul y w) := by
  rw [gfMul_comm, gfMul_left_comm, gfMul_comm w]

/-- Settles O39: multiplication by a block is a polynomial in multiplication by `x`, so any two
commute, and the identity element carries that over to the product. -/
theorem multiplierFieldLaws : Obligations.MultiplierFieldLaws := by
  refine ⟨gfMul_comm, gfMul_assoc, fun x w y => ?_, fun y => ?_, fun y => ?_, by decide +kernel⟩
  · rw [gfMul_comm, gfMul_xor_right, gfMul_comm y, gfMul_comm y]
  · rw [gfMul_comm, gfMul_zero]
  · rw [gfMul_comm, gfMul_one]

/-! ## The carry-less form (R101) -/

/-- The reduction is linear. -/
theorem clReduce_xor (n : Nat) (p q : BitVec 256) :
    clReduce n (p ^^^ q) = clReduce n p ^^^ clReduce n q := by
  induction n generalizing p q with
  | zero => rfl
  | succ n ih =>
    simp only [clReduce, ← ih, ite_xor, BitVec.getLsbD_xor, ite_bxor]
    congr 1
    ac_rfl

theorem clReduce_zero (n : Nat) : clReduce n 0 = 0 := by
  have h := clReduce_xor n 0 0
  rwa [BitVec.xor_self, BitVec.xor_self] at h

/-- The polynomial's coefficients below 128 are those of the reduction constant, reversed. -/
theorem getLsbD_gfPoly : ∀ i < 256, gfPoly.getLsbD i =
    (decide (i = 128) || decide (i < 128) && gfR.getLsbD (127 - i)) := by decide +kernel

/-- The multiples of the polynomial that the reduction can subtract reduce to zero: step `i` meets
the leading coefficient of `x^i` times the polynomial and takes all of it away. -/
theorem clReduce_gfPoly {n i : Nat} (hn : n < 128) (hi : i < n) :
    clReduce n (gfPoly <<< i) = 0 := by
  induction n with
  | zero => omega
  | succ n ih =>
    have hbit : (gfPoly <<< i).getLsbD (128 + n) = decide (i = n) := by
      rw [BitVec.getLsbD_shiftLeft, getLsbD_gfPoly _ (by omega)]
      grind
    rw [clReduce, hbit]
    obtain rfl | hne := eq_or_ne i n
    · rw [if_pos (decide_eq_true rfl), BitVec.xor_self]
      exact clReduce_zero i
    · rw [if_neg (by simpa using hne), ih (by omega) (by omega)]

theorem clReduce_ite_gfPoly (b : Bool) {i : Nat} (hi : i < 127) :
    clReduce 127 ((if b = true then gfPoly else 0) <<< i) = 0 := by
  cases b
  · simpa using clReduce_zero 127
  · exact clReduce_gfPoly (by decide) hi

/-- What has no coefficient at or above 128 is reduced. -/
theorem clReduce_setWidth (n : Nat) (b : Block) : clReduce n (b.setWidth 256) = b.setWidth 256 := by
  induction n with
  | zero => rfl
  | succ n ih =>
    have h : (b.setWidth 256).getLsbD (128 + n) = false := by simp
    rw [clReduce, h, if_neg Bool.false_ne_true, ih]

theorem getLsbD_gfMulX (v : Block) (i : Nat) :
    (gfMulX v).getLsbD i = (v.getLsbD (i + 1) ^^ (v.getLsbD 0 && gfR.getLsbD i)) := by
  rw [gfMulX, ite_xor, BitVec.getLsbD_xor, BitVec.getLsbD_ushiftRight, Nat.add_comm]
  cases v.getLsbD 0 <;> simp

theorem getLsbD_reverse_setWidth (v : Block) {i : Nat} (hi : i < 256) :
    (v.reverse.setWidth 256).getLsbD i = (decide (i < 128) && v.getLsbD (127 - i)) := by
  rw [BitVec.getLsbD_setWidth, BitVec.getLsbD_reverse, BitVec.getMsbD]
  simp [hi]

/-- One step of V, reversed, is a shift reduced by the polynomial. -/
theorem setWidth_shiftLeft_one (v : Block) :
    v.reverse.setWidth 256 <<< 1 =
      (gfMulX v).reverse.setWidth 256 ^^^ (if v.getLsbD 0 = true then gfPoly else 0) := by
  refine BitVec.eq_of_getLsbD_eq fun i hi => ?_
  have hite : (if v.getLsbD 0 = true then gfPoly else 0).getLsbD i =
      (v.getLsbD 0 && gfPoly.getLsbD i) := by
    cases v.getLsbD 0 <;> simp
  rw [BitVec.getLsbD_shiftLeft, BitVec.getLsbD_xor, hite, getLsbD_gfPoly i hi,
    getLsbD_reverse_setWidth _ hi, getLsbD_gfMulX, getLsbD_reverse_setWidth _ (by omega)]
  obtain h | h | h | h : i = 0 ∨ (i ≠ 0 ∧ i < 128) ∨ i = 128 ∨ 128 < i := by omega
  · simp [h]
  · have hj : 127 - (i - 1) = 127 - i + 1 := by omega
    simp [h, hj, hi, show i - 1 < 128 by omega, show i ≠ 128 by omega]
  · simp [h]
  · simp [show ¬ i < 128 by omega, show i ≠ 128 by omega, show ¬ i - 1 < 128 by omega]

/-- The carry-less form of `x^i` times a block. -/
theorem clReduce_shiftLeft {i : Nat} (hi : i < 128) (y : Block) :
    clReduce 127 (y.reverse.setWidth 256 <<< i) = (gfMulX^[i] y).reverse.setWidth 256 := by
  induction i generalizing y with
  | zero => rw [BitVec.shiftLeft_zero, Function.iterate_zero, id, clReduce_setWidth]
  | succ i ih =>
    rw [Nat.add_comm, BitVec.shiftLeft_add, setWidth_shiftLeft_one, BitVec.shiftLeft_xor_distrib,
      clReduce_xor, ih (by omega), clReduce_ite_gfPoly _ (by omega), Nat.add_comm,
      Function.iterate_succ_apply]
    exact BitVec.xor_zero

/-- The block of R101 that a carry-less product reduces to. -/
def clBlock (p : BitVec 256) : Block := ((clReduce 127 p).setWidth 128).reverse

theorem clBlock_xor (p q : BitVec 256) : clBlock (p ^^^ q) = clBlock p ^^^ clBlock q := by
  rw [clBlock, clReduce_xor, BitVec.setWidth_xor]
  ext i hi
  simp [clBlock, BitVec.getElem_reverse]

theorem clBlock_zero : clBlock 0 = 0 := by
  have h := clBlock_xor 0 0
  rwa [BitVec.xor_self, BitVec.xor_self] at h

theorem clBlock_shiftLeft {i : Nat} (hi : i < 128) (y : Block) :
    clBlock (y.reverse.setWidth 256 <<< i) = gfMulX^[i] y := by
  rw [clBlock, clReduce_shiftLeft hi]
  simp

/-- The loop of R100 after `i` steps follows the sum of R101 from term `i` on. -/
theorem clBlock_foldl (x y : Block) (n i : Nat) (hn : i + n = 128) (p : BitVec 256) :
    clBlock ((List.range' i n).foldl
        (fun p i => if x.reverse.getLsbD i then p ^^^ (y.reverse.setWidth 256 <<< i) else p) p) =
      gfLoop x n (clBlock p) (gfMulX^[i] y) := by
  induction n generalizing i p with
  | zero => rfl
  | succ n ih =>
    have hbit : x.reverse.getLsbD i = x.getLsbD n := by
      rw [BitVec.getLsbD_reverse, BitVec.getMsbD, show 128 - 1 - i = n by omega]
      simp [show i < 128 by omega]
    rw [List.range'_succ, List.foldl_cons, ih (i + 1) (by omega), gfLoop, hbit,
      apply_ite clBlock, clBlock_xor, clBlock_shiftLeft (by omega), Function.iterate_succ_apply']

/-- Settles O40: the terms of the carry-less product reduce to the blocks that the bit-serial loop
adds. -/
theorem carryLessFormAgrees : Obligations.CarryLessFormAgrees := by
  intro x y
  have h := clBlock_foldl x y 128 0 rfl 0
  rw [gfMul_eq, gfMulCarryless, ← clBlock, clmul, List.range_eq_range', h, clBlock_zero]
  rfl

end Sys2Proof.Machine
end

section
/-! PROOFS (40_ghash_counter.md, 41_init.md). The counter step by numbers and bytes (R106), GHASH in
pieces (R105), the length block (R110), and from them what INIT leaves (R131). -/

namespace Sys2Proof

theorem be64_mul_mod (k n : Nat) : be64 (k * (n % 2 ^ 64)) = be64 (k * n) := by
  rw [be64, be64, ← beBytes_mod 8 (k * n), ← beBytes_mod 8, ← Nat.mul_mod_mod k n]
  rfl

/-- A string of a whole number of blocks is not padded (R16). -/
theorem pad16_of_mod {bs : List Byte} (h : bs.length % 16 = 0) : pad16 bs = bs := by
  simp [pad16, h]

theorem pad16_of_le {bs : List Byte} (h₁ : 1 ≤ bs.length) (h₂ : bs.length ≤ 16) :
    pad16 bs = bs ++ zeros (16 - bs.length) := by
  rw [pad16]
  congr 2
  omega

end Sys2Proof

namespace Sys2Proof.Machine

/-! ## The counter step (R106) -/

theorem inc32_toNat (c : Block) :
    (inc32 c).toNat = c.toNat / 2 ^ 32 * 2 ^ 32 + (c.toNat % 2 ^ 32 + 1) % 2 ^ 32 := by
  have hc := c.isLt
  have h1 : (1 : BitVec 32).toNat = 1 := rfl
  rw [inc32, BitVec.toNat_append, ← Nat.shiftLeft_add_eq_or_of_lt (BitVec.isLt _),
    Nat.shiftLeft_eq, BitVec.toNat_add, h1, BitVec.extractLsb'_toNat, BitVec.extractLsb'_toNat,
    Nat.shiftRight_eq_div_pow]
  omega

theorem blockBytes_inc32 (c : Block) :
    blockBytes (inc32 c) =
      (blockBytes c).take 12 ++ be32 (beNat ((blockBytes c).drop 12) + 1) := by
  have hsplit (v : Nat) : beBytes 16 v = beBytes 12 (v >>> 32) ++ beBytes 4 v := beBytes_add 12 4 v
  have hlow : beNat (beBytes 4 c.toNat) = c.toNat % 2 ^ 32 := beNat_beBytes 4 _
  have hupper : (inc32 c).toNat >>> 32 = c.toNat >>> 32 := by
    rw [inc32_toNat, Nat.shiftRight_eq_div_pow, Nat.shiftRight_eq_div_pow]
    omega
  have hcount : (inc32 c).toNat % 256 ^ 4 = (c.toNat % 2 ^ 32 + 1) % 256 ^ 4 := by
    rw [inc32_toNat]
    omega
  rw [blockBytes, blockBytes, hsplit, hsplit c.toNat, List.take_left' (beBytes_length _ _),
    List.drop_left' (beBytes_length _ _), hlow, hupper, ← beBytes_mod 4 (inc32 c).toNat, hcount,
    beBytes_mod, be32]

/-- Settles O41: the step as a number, from it the bytes, and the wrap. -/
theorem counterStepWrapsInThirtyTwoBits : Obligations.CounterStepWrapsInThirtyTwoBits := by
  refine fun c => ⟨inc32_toNat c, blockBytes_inc32 c, fun hc => ⟨?_, inc32_upper c⟩⟩
  rw [inc32, hc, BitVec.extractLsb'_append_eq_right]
  rfl

/-! ## GHASH (R105) -/

theorem ghash_nil (h a : Block) : ghash h a [] = a := rfl

/-- A string that begins with whole blocks folds them first (R105). -/
theorem ghash_append {bs : List Byte} (hbs : bs.length % 16 = 0) (h a : Block) (cs : List Byte) :
    ghash h a (bs ++ cs) = ghash h (ghash h a bs) cs := by
  have hlen : bs.length = 16 * (bs.length / 16) := by omega
  have hsum : (bs ++ pad16 cs).length / 16 = bs.length / 16 + (pad16 cs).length / 16 := by
    rw [List.length_append]
    omega
  rw [ghash, ghash, ghash, pad16_append _ _ hbs, pad16_of_mod hbs, hsum, chunks_append _ _ _ _ hlen,
    List.foldl_append]

/-- A string of at most a block is one fold of the block it begins (R105, R104). -/
theorem ghash_of_le {bs : List Byte} (h₁ : 1 ≤ bs.length) (h₂ : bs.length ≤ 16) (h a : Block) :
    ghash h a bs = fold h a (blockOf bs) := by
  have hlen : (pad16 bs).length / 16 = 1 := by
    rw [pad16_length]
    omega
  have htake : (pad16 bs).take 16 = pad16 bs :=
    List.take_of_length_le (by rw [pad16_length]; omega)
  rw [ghash, hlen, chunks, htake, pad16_of_le h₁ h₂, chunks, List.foldl_cons, blockOf_padded]
  rfl

/-- Settles O42: the pieces of the padded string are those of its whole blocks and those of the
rest. -/
theorem ghashFoldsBlocksInOrder : Obligations.GhashFoldsBlocksInOrder := by
  refine fun h a => ⟨ghash_nil h a, fun bs h₁ h₂ => ?_, fun bs cs hbs => ghash_append hbs h a cs⟩
  rw [blockOf_padded, ghash_of_le h₁ h₂, fold]

/-! ## The length block (R109, R110) -/

/-- The length block as the block of its bytes (R109, R110). -/
theorem lengthBlock_eq (a c : Word64) :
    lengthBlock a c = blockOf (be64 (8 * a.toNat) ++ be64 (8 * c.toNat)) := by
  rw [← blockBytes_lengthBlock, blockOf_blockBytes]

/-- The length block of counts that are taken modulo 2^64 (R15). -/
theorem lengthBlock_ofNat (a : Word64) (n : Nat) :
    lengthBlock a (BitVec.ofNat 64 n) = blockOf (be64 (8 * a.toNat) ++ be64 (8 * n)) := by
  rw [lengthBlock_eq, BitVec.toNat_ofNat, be64_mul_mod]

/-- The length block for a count that has grown by `n` (R110). -/
theorem lengthBlock_add (a p : Word64) (n : Nat) :
    lengthBlock a (p + BitVec.ofNat 64 n) =
      blockOf (be64 (8 * a.toNat) ++ be64 (8 * (p.toNat + n))) := by
  rw [← lengthBlock_ofNat, BitVec.ofNat_add, BitVec.ofNat_toNat, BitVec.setWidth_eq]

/-! ## INIT (R130 to R133) -/

theorem blockBytes_deriveJ0 (h : Block) {iv : List Byte} (hiv : iv.length = 12) :
    blockBytes (deriveJ0 h iv) = iv ++ [0, 0, 0, 1] := by
  have hlen : (iv ++ be32 1).length = 16 := by rw [List.length_append, be32_length, hiv]
  rw [deriveJ0, if_pos hiv, blockBytes_blockOf _ hlen.le, hlen, Nat.sub_self, zeros_zero,
    List.append_nil]
  rfl

theorem deriveJ0_of_ne (h : Block) {iv : List Byte} (hiv : iv.length ≠ 12) :
    deriveJ0 h iv = fold h (ghash h 0 iv) (blockOf (zeros 8 ++ be64 (8 * iv.length))) := by
  rw [deriveJ0, if_neg hiv, lengthBlock_ofNat]
  rfl

theorem tagLegal_iff (tl : BitVec 5) : tagLegal tl = true ↔ tl.toNat ∈ [4, 8, 12, 13, 14, 15, 16] :=
  List.contains_iff_mem

/-- INIT accepted: the registers of R131 (R130). -/
theorem initReply_of_accepted (E : Block → Block) (dir : Phase) {tl : BitVec 5} {iv : List Byte}
    (aad : List Byte) {c : Context} (hp : c.phase = .idle) (ht : tagLegal tl = true)
    (hiv : iv ≠ []) :
    initReply E dir tl iv aad c = reply (initContext E dir tl iv aad) [] := by
  obtain ⟨hn, -⟩ | ⟨-, hn, -⟩ | ⟨-, -, -, hr⟩ := initReply_cases E dir tl iv aad c
  · exact absurd hp hn
  · simp [ht, hiv] at hn
  · exact hr

/-- Both INITs, accepted (R132, R133). -/
theorem exec_init_of_accepted {i : Instr} {dir : Phase} {tl : BitVec 5} {iv aad : List Byte}
    (hi : IsInit i dir tl iv aad) {s : State} (hp : s.ctx.phase = .idle) (ht : tagLegal tl = true)
    (hiv : iv ≠ []) :
    exec i s = .next (s.answered (initContext s.cipher dir tl iv aad) .ok []) := by
  have hr := initReply_of_accepted s.cipher dir aad hp ht hiv
  cases hi <;> rw [exec_eq, replyOf, hr] <;> rfl

/-- Settles O21: an accepted INIT_ENC, with J0 by the length of the IV. -/
theorem initEncStartsEncryption : Obligations.InitEncStartsEncryption :=
  fun s _ iv _ hp ht hiv =>
    ⟨deriveJ0 (s.cipher 0) iv, blockBytes_deriveJ0 _, deriveJ0_of_ne _,
      exec_init_of_accepted .enc hp ((tagLegal_iff _).mpr ht) hiv⟩

/-- Settles O22: an accepted INIT_DEC, with J0 by the length of the IV. -/
theorem initDecStartsDecryption : Obligations.InitDecStartsDecryption :=
  fun s _ iv _ hp ht hiv =>
    ⟨deriveJ0 (s.cipher 0) iv, blockBytes_deriveJ0 _, deriveJ0_of_ne _,
      exec_init_of_accepted .dec hp ((tagLegal_iff _).mpr ht) hiv⟩

end Sys2Proof.Machine
end

section
/-! PROOFS (42_encrypt.md). The keystream and GHASH of a string from its first block on (R154,
R105), which the encrypt walk follows block by block. -/

namespace Sys2Proof

theorem beBytes_xor (n u v : Nat) : beBytes n (u ^^^ v) = xorBytes (beBytes n u) (beBytes n v) := by
  induction n with
  | zero => rfl
  | succ n ih =>
    rw [beBytes, ih, Nat.shiftRight_xor_distrib, BitVec.ofNat_xor]
    rfl

/-- The XOR of blocks is bytewise (R16). -/
theorem blockBytes_xor (a b : Block) :
    blockBytes (a ^^^ b) = xorBytes (blockBytes a) (blockBytes b) := by
  rw [blockBytes, BitVec.toNat_xor, beBytes_xor]
  rfl

/-- A whole block XORed with another. -/
theorem blockBytes_blockOf_xor {bs : List Byte} (h : bs.length = 16) (k : Block) :
    blockBytes (blockOf bs ^^^ k) = xorBytes bs (blockBytes k) := by
  rw [blockBytes_xor, blockBytes_blockOf bs h.le, h, Nat.sub_self, zeros_zero, List.append_nil]

/-- The count of a string's bytes is that of its first block and that of the rest. -/
theorem ofNat_length_peel (bs : List Byte) :
    BitVec.ofNat 64 bs.length =
      BitVec.ofNat 64 (bs.take 16).length + BitVec.ofNat 64 (bs.drop 16).length := by
  rw [← BitVec.ofNat_add, ← List.length_append, List.take_append_drop]

end Sys2Proof

namespace Sys2Proof.Machine

/-! ## Strings block by block (R105, R154) -/

@[simp] theorem streamXor_length (E : Block → Block) (cb : Block) (bs : List Byte) :
    (streamXor E cb bs).length = bs.length := List.length_mapIdx

@[simp] theorem streamXor_nil (E : Block → Block) (cb : Block) : streamXor E cb [] = [] := rfl

/-- The keystream of at most a block is the block after the counter block (R152). -/
theorem streamXor_of_le (E : Block → Block) (cb : Block) {bs : List Byte} (h : bs.length ≤ 16) :
    streamXor E cb bs = xorBytes bs (blockBytes (E (inc32 cb))) := by
  refine List.ext_getElem (by simp [h]) fun k hk _ => ?_
  have hk : k < 16 := by
    rw [streamXor_length] at hk
    omega
  have hkey : keystreamByte E cb k = (blockBytes (E (inc32 cb)))[k]'(by simpa using hk) := by
    rw [keystreamByte, Nat.div_eq_of_lt hk, Nat.mod_eq_of_lt hk]
    exact List.getD_eq_getElem _ _ _
  simp only [streamXor, xorBytes, List.getElem_mapIdx, List.getElem_zipWith, hkey]

/-- After a block the keystream is that of the stepped counter block (R154). -/
theorem keystreamByte_add (E : Block → Block) (cb : Block) (k : Nat) :
    keystreamByte E cb (k + 16) = keystreamByte E (inc32 cb) k := by
  rw [keystreamByte, Nat.add_div_right _ (by decide), Nat.add_mod_right, ← Nat.add_assoc,
    Function.iterate_succ_apply]
  rfl

theorem streamXor_append (E : Block → Block) (cb : Block) {as : List Byte} (h : as.length = 16)
    (bs : List Byte) :
    streamXor E cb (as ++ bs) = streamXor E cb as ++ streamXor E (inc32 cb) bs := by
  simp only [streamXor, List.mapIdx_append, h, keystreamByte_add]

/-- The keystream of a string, from its first block on (R154). -/
theorem streamXor_peel (E : Block → Block) (cb : Block) (bs : List Byte) :
    streamXor E cb bs = xorBytes (bs.take 16) (blockBytes (E (inc32 cb))) ++
      streamXor E (inc32 cb) (bs.drop 16) := by
  have htake : (bs.take 16).length = min 16 bs.length := List.length_take
  rw [← streamXor_of_le E cb (by omega)]
  obtain hle | hge := Nat.le_total bs.length 16
  · rw [List.take_of_length_le hle, List.drop_of_length_le hle, streamXor_nil, List.append_nil]
  · rw [← streamXor_append E cb (by omega), List.take_append_drop]

/-- A string that begins with a block folds it first (R105). -/
theorem ghash_blockBytes_append (h a x : Block) (bs : List Byte) :
    ghash h a (blockBytes x ++ bs) = ghash h (fold h a x) bs := by
  have hlen := blockBytes_length x
  rw [ghash_append (by omega), ghash_of_le (bs := blockBytes x) (by omega) (by omega),
    blockOf_blockBytes]

/-- A string that is not empty folds its first block, padded when it is the last (R105). -/
theorem ghash_peel (h a : Block) {bs : List Byte} (hbs : bs ≠ []) :
    ghash h a bs = ghash h (fold h a (blockOf (bs.take 16))) (bs.drop 16) := by
  have hpos := List.length_pos_of_ne_nil hbs
  have htake : (bs.take 16).length = min 16 bs.length := List.length_take
  rw [← ghash_of_le (by omega) (by omega)]
  obtain hle | hge := Nat.le_total bs.length 16
  · rw [List.take_of_length_le hle, List.drop_of_length_le hle, ghash_nil]
  · rw [← ghash_append (by omega), List.take_append_drop]

/-! ## ENC_UPDATE (R150, R151) -/

section
variable (E : Block → Block)

/-- The encrypt walk over `n` blocks emits them XORed with the keystream and folds what it emits. -/
theorem encryptBlocks_chunks (n : Nat) {bs : List Byte} (hbs : bs.length = 16 * n) (c : Context) :
    encryptBlocks E c ((chunks n bs).map blockOf) =
      ({ c with
        cb := inc32^[n] c.cb
        y := ghash c.h c.y (streamXor E c.cb bs)
        procLen := c.procLen + BitVec.ofNat 64 bs.length }, streamXor E c.cb bs) := by
  induction n generalizing bs c with
  | zero =>
    obtain rfl : bs = [] := List.eq_nil_of_length_eq_zero (by omega)
    simp [chunks, encryptBlocks, streamXor_nil, ghash_nil]
  | succ n ih =>
    have hhead : (bs.take 16).length = 16 := by rw [List.length_take]; omega
    have hdrop : (bs.drop 16).length = 16 * n := by rw [List.length_drop]; omega
    have hblock : blockBytes (blockOf (bs.take 16) ^^^ c.keystream E) =
        xorBytes (bs.take 16) (blockBytes (E (inc32 c.cb))) := blockBytes_blockOf_xor hhead _
    rw [chunks, List.map_cons, encryptBlocks, ih hdrop, streamXor_peel E c.cb bs, ← hblock,
      ghash_blockBytes_append, ofNat_length_peel bs, hhead, ← BitVec.add_assoc]
    rfl

end

/-- Settles O24: the whole blocks run through the pipeline, and `setRem` keeps the rest. -/
theorem encUpdateRunsThePipeline : Obligations.EncUpdateRunsThePipeline := by
  rintro s chunk d ct n hp hd rfl rfl
  have hlen : (d.take (16 * (d.length / 16))).length = 16 * (d.length / 16) :=
    take_wholeBlocks_length d
  have hwalk := encryptBlocks_chunks s.cipher _ hlen s.ctx
  rw [chunks_take] at hwalk
  apply exec_encUpdate_of_reply
  rw [encUpdateReply_eq s.cipher chunk hp, Context.remBytes, ← hd, wholeBlocks, hwalk,
    streamXor_length]
  rfl

/-! ## ENC_FINAL (R152, R153) -/

/-- The partial block: the bytes of REM XORed with the keystream, emitted and folded (R152). -/
theorem encryptPartial_eq (E : Block → Block) (c : Context) :
    encryptPartial E c =
      ({ c with
        cb := inc32 c.cb
        y := fold c.h c.y (blockOf (streamXor E c.cb c.remBytes))
        procLen := c.procLen + BitVec.ofNat 64 c.remLen.toNat
        rem := 0
        remLen := 0 }, streamXor E c.cb c.remBytes) := by
  have hlen := remBytes_length c
  have hlt := c.remLen.isLt
  rw [streamXor_of_le E c.cb (by omega)]
  rfl

/-- ENC_FINAL before the length block: the bytes of REM, if there are any, are the last block of the
ciphertext (R152). -/
theorem encryptRem_eq (E : Block → Block) (c : Context) :
    (if c.remLen.toNat = 0 then (c, []) else encryptPartial E c) =
      ({ c with
        cb := if c.remLen.toNat = 0 then c.cb else inc32 c.cb
        y := if c.remLen.toNat = 0 then c.y
          else fold c.h c.y (blockOf (streamXor E c.cb c.remBytes))
        procLen := c.procLen + BitVec.ofNat 64 c.remLen.toNat
        rem := if c.remLen.toNat = 0 then c.rem else 0
        remLen := 0 }, streamXor E c.cb c.remBytes) := by
  by_cases h0 : c.remLen.toNat = 0
  · have hlen : c.remLen = 0 := BitVec.eq_of_toNat_eq h0
    have hrem : c.remBytes = [] := List.eq_nil_of_length_eq_zero ((remBytes_length c).trans h0)
    simp only [h0, if_true, hrem, streamXor_nil, BitVec.ofNat_eq_ofNat, BitVec.add_zero]
    rw [← BitVec.ofNat_eq_ofNat, ← hlen]
  · simp only [if_neg h0, encryptPartial_eq]

/-- Settles O27: with bytes in REM the partial block comes first, and without them only the lengths
are folded. -/
theorem encFinalEmitsCiphertextAndTag : Obligations.EncFinalEmitsCiphertextAndTag := by
  rintro s outcap r ct y rem hp rfl hroom hct hy rfl
  have hlen : ct.length = s.ctx.remLen.toNat := by
    rw [hct, streamXor_length]
    exact remBytes_length s.ctx
  obtain ⟨hn, -⟩ | ⟨-, hn, -⟩ | ⟨-, -, p, hpart, hr⟩ := encFinalReply_cases s.cipher outcap s.ctx
  · exact absurd hp hn
  · omega
  · rw [encryptRem_eq, Context.remBytes, ← hct] at hpart
    rw [← hlen, blockOf_padded, hlen, ← lengthBlock_add] at hy
    refine ⟨?_, fun hinv => ?_⟩
    · rw [exec_eq, replyOf, hr, hpart, hy]
      rfl
    · split
      · exact hinv.rem_eq_zero (BitVec.eq_of_toNat_eq ‹_›)
      · rfl

end Sys2Proof.Machine
end

section
/-! PROOFS (43_decrypt.md). The comparison of tags, the decrypt walk over BUF in place, DEC_FINAL,
and messages received in any chunks. -/

namespace Sys2Proof.Machine

/-! ## The comparison (R174) -/

/-- The OR of the byte differences is zero just for equal strings. -/
theorem foldl_or_xorBytes_eq_zero {a b : List Byte} (hlen : a.length = b.length) (acc : Byte) :
    (xorBytes a b).foldl (fun acc d => acc ||| d) acc = 0 ↔ acc = 0 ∧ a = b := by
  induction a generalizing b acc with
  | nil =>
    obtain rfl : b = [] := List.eq_nil_of_length_eq_zero hlen.symm
    simp [xorBytes]
  | cons x a ih =>
    obtain _ | ⟨y, b⟩ := b
    · cases hlen
    · have hrest := ih (Nat.succ.inj hlen) (acc ||| (x ^^^ y))
      have hor : acc ||| (x ^^^ y) = 0 ↔ acc = 0 ∧ x = y := by simp
      rw [xorBytes] at hrest
      rw [xorBytes, List.zipWith_cons_cons, List.foldl_cons, hrest, List.cons.injEq, hor, and_assoc]

theorem constantTimeEqual_iff {a b : List Byte} (hlen : a.length = b.length) :
    constantTimeEqual a b = true ↔ a = b := by
  rw [constantTimeEqual, beq_iff_eq, foldl_or_xorBytes_eq_zero hlen, eq_self_iff_true, true_and]

/-! ## The walk (R172, R173) -/

/-- A piece that stands between two others in BUF. -/
theorem bufSlice_append (pre mid post : List Byte) :
    bufSlice (pre ++ (mid ++ post)) pre.length mid.length = mid := by
  rw [bufSlice_of_le _ _ _ (by simp), List.drop_left, List.take_left]

theorem bufSlice_head (as bs : List Byte) : bufSlice (as ++ bs) 0 as.length = as :=
  bufSlice_append [] as bs

theorem bufSlice_tail (as bs : List Byte) : bufSlice (as ++ bs) as.length bs.length = bs := by
  simpa using bufSlice_append as bs []

theorem bufWrite_append (pre post : List Byte) {mid new : List Byte}
    (hlen : new.length = mid.length) :
    bufWrite (pre ++ (mid ++ post)) pre.length new = pre ++ (new ++ post) := by
  rw [bufWrite, bufSlice_head, hlen, ← List.append_assoc pre mid, ← List.length_append, List.drop_left]

/-- One block of the walk over BUF (R173). -/
theorem decryptBlock_eq (E : Block → Block) (c : Context) {pre mid post : List Byte}
    (hbuf : c.buf = pre ++ (mid ++ post)) (hmid : mid.length ≤ 16) :
    decryptBlock E c pre.length mid.length =
      { c.stepBlock (blockOf mid) mid.length with
        buf := pre ++ (xorBytes mid (blockBytes (c.keystream E)) ++ post) } := by
  rw [decryptBlock, hbuf, bufSlice_append, bufWrite_append pre post (by simpa using hmid)]

/-- The walk over the ciphertext that stands in BUF after `pre`: it is folded, and the keystream
turns it into plaintext in place (R172, R173). -/
theorem decryptWalk_eq (E : Block → Block) {n k o : Nat} {c : Context} {pre ct post : List Byte}
    (hbuf : c.buf = pre ++ (ct ++ post)) (hk : k = (ct.length + 15) / 16)
    (ho : ct ≠ [] → o = pre.length) (hn : n = pre.length + ct.length) :
    decryptWalk E n k o c =
      { c with
        cb := inc32^[k] c.cb
        y := ghash c.h c.y ct
        procLen := c.procLen + BitVec.ofNat 64 ct.length
        buf := pre ++ (streamXor E c.cb ct ++ post) } := by
  induction k generalizing o c pre ct with
  | zero =>
    obtain rfl : ct = [] := List.eq_nil_of_length_eq_zero (by omega)
    simp only [decryptWalk, streamXor_nil, ← hbuf, ghash_nil, List.length_nil, BitVec.add_zero]
    rfl
  | succ k ih =>
    have hne : ct ≠ [] := List.ne_nil_of_length_pos (by omega)
    have htake : (ct.take 16).length = min 16 ct.length := List.length_take
    have hdrop : (ct.drop 16).length = ct.length - 16 := List.length_drop
    have hmin : min 16 (n - o) = (ct.take 16).length := by
      rw [ho hne]
      omega
    have hxor : (xorBytes (ct.take 16) (blockBytes (c.keystream E))).length =
        (ct.take 16).length := by
      rw [xorBytes_length, blockBytes_length]
      omega
    have hblock := decryptBlock_eq E c (pre := pre) (mid := ct.take 16) (post := ct.drop 16 ++ post)
      (by rw [hbuf, ← List.append_assoc (ct.take 16), List.take_append_drop]) (by omega)
    rw [decryptWalk, hmin, ho hne, hblock,
      ih (pre := pre ++ xorBytes (ct.take 16) (blockBytes (c.keystream E))) (ct := ct.drop 16)]
    · rw [ghash_peel _ _ hne, streamXor_peel E c.cb ct, ofNat_length_peel ct, ← BitVec.add_assoc,
        List.append_assoc, List.append_assoc]
      rfl
    · exact (List.append_assoc _ _ _).symm
    · omega
    · intro hrest
      have := List.length_pos_of_ne_nil hrest
      rw [List.length_append]
      omega
    · rw [List.length_append]
      omega

/-! ## DEC_FINAL (R172) -/

theorem tlen_le_of_tagLegal {tl : BitVec 5} (h : tagLegal tl = true) : tl.toNat ≤ 16 := by
  have hmem := (tagLegal_iff tl).mp h
  simp only [List.mem_cons, List.not_mem_nil, or_false] at hmem
  omega

/-- The registers after DEC_FINAL of the ciphertext `ct` (R172). -/
def decrypted (c : Context) (ct : List Byte) : Context :=
  { c with
    phase := .done
    cb := inc32^[(ct.length + 15) / 16] c.cb
    y := fold c.h (ghash c.h c.y ct)
      (lengthBlock c.aadLen (c.procLen + BitVec.ofNat 64 ct.length))
    procLen := c.procLen + BitVec.ofNat 64 ct.length
    buf := []
    bufLen := 0 }

/-- DEC_FINAL with room for the plaintext, where BUF holds the ciphertext and a whole tag (R172). -/
theorem decFinalReply_eq (E : Block → Block) {outcap : Word64} {c : Context} {ct tag : List Byte}
    (hinv : c.Inv) (hp : c.phase = .decrypting) (hbuf : c.buf = ct ++ tag)
    (htag : tag.length = c.tlen.toNat) (hroom : ct.length ≤ outcap.toNat) :
    decFinalReply E outcap c =
      if tag = (decrypted c ct).tag E then reply (decrypted c ct) (streamXor E c.cb ct)
      else replyErr .authFailed (decrypted c ct) := by
  have hlen : c.bufLen.toNat = ct.length + tag.length := by
    rw [← hinv.buf_valid, hbuf, List.length_append]
  have htlen : c.tlen.toNat ≤ 16 :=
    tlen_le_of_tagLegal (hinv.tlen_legal (by simp [hp]) (by simp [hp]))
  obtain ⟨hn, -⟩ | ⟨-, hn, -⟩ | ⟨-, -, hn, -⟩ | ⟨-, -, n, w, hn, -, hw, hr⟩ :=
    decFinalReply_cases E outcap c
  · exact absurd hp hn
  · omega
  · omega
  · obtain rfl : n = ct.length := by omega
    have hwalk := decryptWalk_eq E (pre := []) (o := 0) hbuf rfl (fun _ => rfl)
      (Nat.zero_add ct.length).symm
    rw [hwalk] at hw
    have hclear : { w.clearBuf with phase := .done } = decrypted c ct := by rw [hw]; rfl
    have hwtag : w.tag E = (decrypted c ct).tag E := by rw [hw]; rfl
    have hwbuf : w.buf = streamXor E c.cb ct ++ tag := by rw [hw]; rfl
    have hwlen : w.tlen.toNat = tag.length := by rw [hw, htag]; rfl
    have hpt : bufSlice w.buf 0 ct.length = streamXor E c.cb ct := by
      rw [hwbuf, ← streamXor_length E c.cb ct, bufSlice_head]
    have hreceived : bufSlice w.buf ct.length w.tlen.toNat = tag := by
      rw [hwbuf, hwlen, ← streamXor_length E c.cb ct, bufSlice_tail]
    have hsame : ((decrypted c ct).tag E).length = tag.length := by
      rw [tag_length, htag]
      exact min_eq_left htlen
    simp only [hr, hpt, hreceived, hwtag, constantTimeEqual_iff hsame, eq_comm (a := tag)]
    rw [← hclear]

/-- DEC_FINAL with room for the plaintext: the tag decides the code and the output (R172). -/
theorem exec_decFinal_of_room {s : State} {outcap : Word64} {ct tag : List Byte}
    (hinv : s.ctx.Inv) (hp : s.ctx.phase = .decrypting) (hbuf : s.ctx.buf = ct ++ tag)
    (htag : tag.length = s.ctx.tlen.toNat) (hroom : ct.length ≤ outcap.toNat) :
    exec (.decFinal outcap) s = .next
      (s.answered (decrypted s.ctx ct)
        (if tag = (decrypted s.ctx ct).tag s.cipher then .ok else .authFailed)
        (if tag = (decrypted s.ctx ct).tag s.cipher then streamXor s.cipher s.ctx.cb ct
          else [])) := by
  rw [exec_eq, replyOf, decFinalReply_eq s.cipher hinv hp hbuf htag hroom]
  split <;> rfl

/-- Settles O32: what the walk leaves in BUF, and the comparison, decide between the two answers. -/
theorem decFinalVerifiesThenReleases : Obligations.DecFinalVerifiesThenReleases := by
  rintro s outcap n ct tag y c hinv hp hbuf htag rfl hroom hy hc
  obtain ⟨hproc, -⟩ := hinv.nothing_folded hp
  have hcount : s.ctx.procLen + BitVec.ofNat 64 ct.length = BitVec.ofNat 64 ct.length := by
    rw [hproc]
    exact BitVec.zero_add _
  have hend : decrypted s.ctx ct = c := by
    rw [decrypted, hcount, lengthBlock_ofNat, ← hy, hc]
  have htagEq : c.tag s.cipher = (blockBytes (s.cipher s.ctx.j0 ^^^ y)).take s.ctx.tlen.toNat := by
    rw [hc]
    rfl
  rw [exec_decFinal_of_room hinv hp hbuf htag hroom, hend, ← htagEq]
  exact ⟨fun h => by rw [if_pos h.symm, if_pos h.symm],
    fun h => by rw [if_neg (Ne.symm h), if_neg (Ne.symm h)]⟩

/-! ## A message in any chunks -/

theorem appendBuf_nil (c : Context) : appendBuf c [] = c := by
  rw [appendBuf, List.append_nil, List.length_nil, BitVec.add_zero]

/-- The list of BUF still holds its valid bytes after a chunk that fits (R33). -/
theorem appendBuf_lengths {c : Context} {chunk : List Byte} (hv : c.buf.length = c.bufLen.toNat)
    (hfit : c.bufLen.toNat + chunk.length ≤ Config.ptBufBytes) :
    (appendBuf c chunk).bufLen.toNat = c.bufLen.toNat + chunk.length ∧
      (appendBuf c chunk).buf.length = (appendBuf c chunk).bufLen.toNat := by
  have hlen : (appendBuf c chunk).bufLen.toNat = c.bufLen.toNat + chunk.length :=
    toNat_bufLen_add hfit
  exact ⟨hlen, by rw [hlen, ← hv]; exact List.length_append⟩

theorem Context.Inv.appendBuf {c : Context} (h : c.Inv) {chunk : List Byte}
    (hp : c.phase = .decrypting) (hfit : c.bufLen.toNat + chunk.length ≤ Config.ptBufBytes) :
    (appendBuf c chunk).Inv := by
  have hnext := h.decUpdate hp hfit
  rwa [← h.buf_valid, bufWrite_at_end] at hnext

theorem execAll_cons_of_next {i : Instr} {s t : State} (h : exec i s = .next t)
    (is : List Instr) : execAll (i :: is) s = execAll is t := by
  rw [execAll, h]

theorem execAll_singleton (i : Instr) (s : State) : execAll [i] s = exec i s := by
  rw [exec_eq_after, execAll_cons_of_next (exec_eq_after i s), execAll]

/-- DEC_UPDATEs that fit append their chunks to BUF, each with a response that has no output
(R170). -/
theorem execAll_decUpdates (chunks : List (List Byte)) (is : List Instr) {s : State}
    (hp : s.ctx.phase = .decrypting) (hv : s.ctx.buf.length = s.ctx.bufLen.toNat)
    (hfit : s.ctx.bufLen.toNat + chunks.flatten.length ≤ Config.ptBufBytes) :
    ∃ rs : List Response, rs.length = chunks.length ∧ (∀ r ∈ rs, r.out = []) ∧
      execAll (chunks.map .decUpdate ++ is) s =
        execAll is { s with
          ctx := appendBuf s.ctx chunks.flatten
          respOut := s.respOut ++ rs } := by
  induction chunks generalizing s with
  | nil => exact ⟨[], rfl, by simp, by simp [appendBuf_nil]⟩
  | cons chunk chunks ih =>
    rw [List.flatten_cons, List.length_append] at hfit
    obtain ⟨hlen, hv₁⟩ := appendBuf_lengths (chunk := chunk) hv (by omega)
    obtain ⟨rs, hrs, hout, hrun⟩ := ih (s := s.answered (appendBuf s.ctx chunk) .ok []) hp hv₁
      (by rw [answered_ctx, hlen, Nat.add_assoc]; exact hfit)
    refine ⟨⟨statusWord .ok (appendBuf s.ctx chunk), []⟩ :: rs, by simp [hrs],
      by simpa using hout, ?_⟩
    rw [List.map_cons, List.cons_append,
      execAll_cons_of_next (exec_decUpdate_of_fits hp hv (by omega)), hrun]
    simp [State.answered, appendBuf_append]

/-- The output of a run in which only the last response may have one. -/
theorem outputSince_answered {s u : State} {rs : List Response} (h : u.respOut = s.respOut ++ rs)
    (hrs : ∀ r ∈ rs, r.out = []) (c : Context) (e : Err) (out : List Byte) :
    outputSince s (u.answered c e out) = out := by
  rw [outputSince, answered_respOut, h, List.append_assoc, List.drop_left, List.flatMap_append,
    List.flatMap_eq_nil_iff.mpr hrs]
  simp

/-- The registers after a message are those of R113, whatever its chunks were. -/
theorem decrypted_initContext (E : Block → Block) (tl : BitVec 5) (iv aad ct bs : List Byte) :
    decrypted (appendBuf (initContext E .decrypting tl iv aad) bs) ct =
      messageEnd E tl iv aad ct := by
  have hcount : (0 : Word64) + BitVec.ofNat 64 ct.length = BitVec.ofNat 64 ct.length :=
    BitVec.zero_add _
  simp only [decrypted, appendBuf, initContext, hcount]
  rfl

theorem messageEnd_tag (E : Block → Block) (tl : BitVec 5) (iv aad ct : List Byte) :
    (messageEnd E tl iv aad ct).tag E = messageTag E (deriveJ0 (E 0) iv) tl.toNat aad ct := rfl

/-- A message received: INIT_DEC and DEC_UPDATEs that fit, each with a response that has no output
(R133, R170). -/
theorem execAll_initDec_decUpdates {tl : BitVec 5} {iv aad : List Byte} (chunks : List (List Byte))
    (is : List Instr) {s : State} (hp : s.ctx.phase = .idle) (htl : tagLegal tl = true)
    (hiv : iv ≠ []) (hfit : chunks.flatten.length ≤ Config.ptBufBytes) :
    ∃ rs : List Response, rs.length = chunks.length + 1 ∧ (∀ r ∈ rs, r.out = []) ∧
      execAll (.initDec tl iv aad :: (chunks.map .decUpdate ++ is)) s =
        execAll is { s with
          ctx := appendBuf (initContext s.cipher .decrypting tl iv aad) chunks.flatten
          respOut := s.respOut ++ rs } := by
  obtain ⟨rs, hlen, hout, hrun⟩ := execAll_decUpdates chunks is
    (s := s.answered (initContext s.cipher .decrypting tl iv aad) .ok []) rfl rfl
    (by simpa [initContext] using hfit)
  refine ⟨⟨statusWord .ok (initContext s.cipher .decrypting tl iv aad), []⟩ :: rs,
    congrArg (· + 1) hlen, by simpa using hout, ?_⟩
  rw [execAll_cons_of_next (exec_init_of_accepted .dec hp htl hiv), hrun]
  simp [State.answered]

/-- DEC_FINAL of a message received, with room for its plaintext: the verdict on the tag of R113. -/
theorem exec_decFinal_of_message {u : State} {tl : BitVec 5} {iv aad ct tag : List Byte}
    {outcap : Word64}
    (hctx : u.ctx = appendBuf (initContext u.cipher .decrypting tl iv aad) (ct ++ tag))
    (htl : tagLegal tl = true) (htag : tag.length = tl.toNat)
    (hcap : ct.length + tag.length ≤ Config.ptBufBytes) (hroom : ct.length ≤ outcap.toNat) :
    exec (.decFinal outcap) u = .next (u.answered (messageEnd u.cipher tl iv aad ct)
      (if tag = messageTag u.cipher (deriveJ0 (u.cipher 0) iv) tl.toNat aad ct
        then .ok else .authFailed)
      (if tag = messageTag u.cipher (deriveJ0 (u.cipher 0) iv) tl.toNat aad ct
        then streamXor u.cipher (deriveJ0 (u.cipher 0) iv) ct else [])) := by
  have hinv : u.ctx.Inv := by
    rw [hctx]
    exact (inv_initContext u.cipher .dec htl).appendBuf rfl (by simpa [initContext] using hcap)
  have hcb : u.ctx.cb = deriveJ0 (u.cipher 0) iv := by rw [hctx]; rfl
  have hend : decrypted u.ctx ct = messageEnd u.cipher tl iv aad ct := by
    rw [hctx, decrypted_initContext]
  rw [← messageEnd_tag, ← hcb, ← hend]
  refine exec_decFinal_of_room hinv ?_ ?_ ?_ hroom
  · rw [hctx]; rfl
  · rw [hctx]; rfl
  · rw [hctx]; exact htag

/-- Settles O37: the run ends with the one response that may have an output. -/
theorem decryptedMessageIsGcm : Obligations.DecryptedMessageIsGcm := by
  intro s tl iv aad chunks outcap ct tag hp htl hiv hflat htag hcap hroom
  obtain ⟨rs, hlen, hout, hrun⟩ := execAll_initDec_decUpdates (aad := aad) chunks
    [.decFinal outcap] hp htl hiv (by rw [hflat, List.length_append]; exact hcap)
  rw [hflat, execAll_singleton, exec_decFinal_of_message rfl htl htag hcap hroom] at hrun
  refine ⟨_, hrun, outputSince_answered rfl hout _ _ _, rfl, ?_, ?_⟩
  · rw [answered_respOut, List.length_append, List.length_append, hlen]
    rfl
  · rw [outputSince_answered rfl hout, answered_respOut, List.getLast?_concat]
    rfl

end Sys2Proof.Machine
end

section
/-! PROOFS (41_init.md). What INIT refuses and in which order (R130), from the whole frame, and
NOP's frame with another bit of its word set (R135). -/

namespace Sys2Proof.Machine

/-! ## Refused INITs (R130) -/

/-- The phase is checked first, whatever TL and IV are. -/
theorem initReply_of_not_idle (E : Block → Block) (dir : Phase) (tl : BitVec 5)
    (iv aad : List Byte) {c : Context} (hp : c.phase ≠ .idle) :
    initReply E dir tl iv aad c = replyErr .sequence c := by
  obtain ⟨-, hr⟩ | ⟨hn, -⟩ | ⟨hn, -⟩ := initReply_cases E dir tl iv aad c
  · exact hr
  · exact absurd hn hp
  · exact absurd hn hp

/-- In IDLE a parameter outside its range is refused: the tag length or the empty IV. -/
theorem initReply_of_invalidParam (E : Block → Block) (dir : Phase) {tl : BitVec 5}
    {iv : List Byte} (aad : List Byte) {c : Context} (hp : c.phase = .idle)
    (hbad : tagLegal tl = false ∨ iv = []) :
    initReply E dir tl iv aad c = replyErr .invalidParam c := by
  obtain ⟨hn, -⟩ | ⟨-, -, hr⟩ | ⟨-, ht, hiv, -⟩ := initReply_cases E dir tl iv aad c
  · exact absurd hp hn
  · exact hr
  · simp [ht, hiv] at hbad

/-- A refused INIT answers its code, keeps the registers and emits nothing (R202). -/
theorem exec_init_of_refused {i : Instr} {dir : Phase} {tl : BitVec 5} {iv aad : List Byte}
    (hi : IsInit i dir tl iv aad) {s : State} {e : Err}
    (hr : initReply s.cipher dir tl iv aad s.ctx = replyErr e s.ctx) :
    exec i s = .next (s.answered s.ctx e []) := by
  cases hi <;> rw [exec_eq, replyOf, hr] <;> rfl

/-- R130 for either INIT, once its frame is taken from the bytes received. -/
theorem exec_init_validates {i : Instr} {dir : Phase} {tl : BitVec 5} {iv aad : List Byte}
    (hi : IsInit i dir tl iv aad) (s : State) :
    (s.ctx.phase ≠ .idle → exec i s = .next (s.answered s.ctx .sequence [])) ∧
    (s.ctx.phase = .idle → tl.toNat ∉ [4, 8, 12, 13, 14, 15, 16] →
      exec i s = .next (s.answered s.ctx .invalidParam [])) ∧
    (s.ctx.phase = .idle → tl.toNat ∈ [4, 8, 12, 13, 14, 15, 16] → iv = [] →
      exec i s = .next (s.answered s.ctx .invalidParam [])) := by
  refine ⟨fun hp => ?_, fun hp ht => ?_, fun hp _ hiv => ?_⟩
  · exact exec_init_of_refused hi (initReply_of_not_idle _ _ _ _ _ hp)
  · have hbad : tagLegal tl = false := eq_false_of_ne_true (mt (tagLegal_iff tl).mp ht)
    exact exec_init_of_refused hi (initReply_of_invalidParam _ _ _ hp (.inl hbad))
  · exact exec_init_of_refused hi (initReply_of_invalidParam _ _ _ hp (.inr hiv))

/-- Settles O23: the step runs the INIT after its whole frame, and the INIT validates. -/
theorem initValidatesInOrder : Obligations.InitValidatesInOrder := by
  intro s tl iv aad rest i hi hwf hr hx
  obtain ⟨dir, hinit⟩ : ∃ dir, IsInit i dir tl iv aad := by
    obtain rfl | rfl := hi
    · exact ⟨_, .enc⟩
    · exact ⟨_, .dec⟩
  rw [stepRunsTheDecodedCommand s i rest hwf hr hx]
  exact exec_init_validates hinit { s with rx := rest }

/-! ## NOP (R135) -/

/-- A nonzero word with OP = 0 has RSV or TL set (R75). -/
theorem rsvField_or_tlField_ne_zero {cw : Word32} (hop : opField cw = 0) (hcw : cw ≠ 0) :
    rsvField cw ≠ 0 ∨ tlField cw ≠ 0 := by
  by_contra hz
  obtain ⟨hrsv, htl⟩ : rsvField cw = 0 ∧ tlField cw = 0 := by
    simpa only [not_or, not_not] using hz
  have hword : makeWord 0 0 = cw := by rw [← hop, ← htl, makeWord_fields hrsv]
  exact hcw (hword.symm.trans (by decide))

/-- Settles O20: NOP's reply, and a frame of the bare command word, which R75 refuses. -/
theorem nopReportsStatus : Obligations.NopReportsStatus := by
  intro s
  refine ⟨exec_eq .nop s, fun cw rest hop hcw hr hx => ?_⟩
  have hargs : nargs (opField cw) = 0 := by rw [opField, hop]; rfl
  have hpay : payloadLen (opField cw) 0 0 = 0 := by rw [opField, hop]; rfl
  obtain ⟨hill, -⟩ := illegalWordAnswersIllegalCmd s cw [] [] rest hargs.symm hpay.symm hr hx
  refine hill ((rsvField_or_tlField_ne_zero hop hcw).elim (fun h => .inr (.inl h)) fun h => ?_)
  exact .inr (.inr ⟨by simp [hop], by simp [hop], h⟩)

end Sys2Proof.Machine
end

section
/-! PROOFS (42_encrypt.md). Updates of length zero, FINALs tried again, and messages encrypted in
any chunks: the chunks run as one, and its leftover bytes are the last block of the ciphertext. -/

namespace Sys2Proof.Machine

/-! ## The whole blocks and the leftover bytes of a string (R105, R154) -/

/-- After `n` blocks the keystream is that of the counter block stepped `n` times (R154). -/
theorem keystreamByte_add_blocks (E : Block → Block) (cb : Block) (k n : Nat) :
    keystreamByte E cb (k + 16 * n) = keystreamByte E (inc32^[n] cb) k := by
  rw [keystreamByte, keystreamByte, Nat.add_mul_div_left _ _ (by decide), Nat.add_mul_mod_self_left,
    ← Nat.add_assoc, Function.iterate_add_apply]

/-- A string that begins with `n` blocks is XORed with the keystream in two parts (R154). -/
theorem streamXor_append_blocks (E : Block → Block) (cb : Block) {as : List Byte} {n : Nat}
    (h : as.length = 16 * n) (bs : List Byte) :
    streamXor E cb (as ++ bs) = streamXor E cb as ++ streamXor E (inc32^[n] cb) bs := by
  simp only [streamXor, List.mapIdx_append, h, keystreamByte_add_blocks]

/-- The registers after `n` blocks of ciphertext `ct` are folded (R151). -/
def foldedBlocks (c : Context) (n : Nat) (ct : List Byte) : Context :=
  { c with
    cb := inc32^[n] c.cb
    y := ghash c.h c.y ct
    procLen := c.procLen + BitVec.ofNat 64 ct.length }

/-- The registers after ENC_FINAL where `ct` is the ciphertext not yet folded: those that DEC_FINAL
of `ct` leaves, with REM cleared (R152, R172). -/
def encrypted (c : Context) (ct : List Byte) : Context :=
  { decrypted c ct with rem := 0, remLen := 0 }

/-- Whole blocks folded before FINAL count as part of its ciphertext, and REM is not read. -/
theorem encrypted_foldedBlocks (c : Context) {n : Nat} {ct₁ : List Byte}
    (h : ct₁.length = 16 * n) (ct₂ t : List Byte) :
    encrypted ((foldedBlocks c n ct₁).setRem t) ct₂ = encrypted c (ct₁ ++ ct₂) := by
  have hlen : (ct₁ ++ ct₂).length = ct₁.length + ct₂.length := List.length_append
  have hsteps : (ct₁.length + ct₂.length + 15) / 16 = (ct₂.length + 15) / 16 + n := by omega
  simp only [encrypted, decrypted, foldedBlocks, Context.setRem, hlen, hsteps,
    Function.iterate_add_apply, ghash_append (by omega : ct₁.length % 16 = 0), BitVec.ofNat_add,
    BitVec.add_assoc]

/-- The registers after a message are those of R113, in either direction. -/
theorem encrypted_initContext (E : Block → Block) (tl : BitVec 5) (iv aad ct : List Byte) :
    encrypted (initContext E .encrypting tl iv aad) ct = messageEnd E tl iv aad ct := by
  have hdec := decrypted_initContext E tl iv aad ct []
  rw [appendBuf_nil] at hdec
  calc encrypted (initContext E .encrypting tl iv aad) ct
      = { decrypted (initContext E .decrypting tl iv aad) ct with rem := 0, remLen := 0 } := rfl
    _ = messageEnd E tl iv aad ct := by rw [hdec]; rfl

/-! ## ENC_FINAL of the bytes of REM (R152) -/

/-- A string shorter than a block is folded as one padded block, if it is not empty (R105). -/
theorem ghash_of_short (h a : Block) {bs : List Byte} (hlt : bs.length < 16) :
    ghash h a bs = if bs.length = 0 then a else fold h a (blockOf bs) := by
  split
  case isTrue h0 => rw [List.eq_nil_of_length_eq_zero h0, ghash_nil]
  case isFalse h0 => exact ghash_of_le (by omega) hlt.le h a

theorem iterate_inc32_of_short (cb : Block) {r : Nat} (hlt : r < 16) :
    inc32^[(r + 15) / 16] cb = if r = 0 then cb else inc32 cb := by
  split
  case isTrue h0 => rw [h0]; rfl
  case isFalse h0 => rw [(by omega : (r + 15) / 16 = 1), Function.iterate_one]

/-- ENC_FINAL with room: the bytes of REM are the end of the ciphertext, and the tag follows
(R152). -/
theorem encFinalReply_eq (E : Block → Block) {outcap : Word64} {c : Context} (hinv : c.Inv)
    (hp : c.phase = .encrypting) (hroom : c.remLen.toNat + c.tlen.toNat ≤ outcap.toNat) :
    encFinalReply E outcap c =
      reply (encrypted c (streamXor E c.cb c.remBytes))
        (streamXor E c.cb c.remBytes ++ (encrypted c (streamXor E c.cb c.remBytes)).tag E) := by
  have hlen : (streamXor E c.cb c.remBytes).length = c.remLen.toNat := by simp
  obtain ⟨hbuf, hbufLen⟩ := hinv.buf_unused (by simp [hp])
  have hrem : (if c.remLen.toNat = 0 then c.rem else 0) = 0 := by
    split
    · exact hinv.rem_eq_zero (BitVec.eq_of_toNat_eq ‹_›)
    · rfl
  obtain ⟨hn, -⟩ | ⟨-, hn, -⟩ | ⟨-, -, p, hpart, hr⟩ := encFinalReply_cases E outcap c
  · exact absurd hp hn
  · omega
  · rw [encryptRem_eq, hrem, ← iterate_inc32_of_short _ c.remLen.isLt, ← hlen,
      ← ghash_of_short _ _ (hlen ▸ c.remLen.isLt)] at hpart
    have hend : { p.1.foldLengths with phase := .done } =
        encrypted c (streamXor E c.cb c.remBytes) := by
      rw [hpart, encrypted, decrypted, ← hbuf, ← hbufLen]
      rfl
    rw [hr, ← hend, hpart]
    rfl

/-! ## A length of zero changes nothing (R150, R170) -/

theorem encUpdateReply_nil (E : Block → Block) {c : Context} (hinv : c.Inv)
    (hp : c.phase = .encrypting) : encUpdateReply E [] c = reply c [] := by
  have hshort : c.remBytes.length / 16 = 0 := by
    rw [remBytes_length]
    exact Nat.div_eq_of_lt c.remLen.isLt
  have hblocks : wholeBlocks c.remBytes = [] := by
    rw [wholeBlocks, hshort]
    rfl
  have hleft : leftover c.remBytes = c.remBytes := by
    rw [leftover, hshort]
    rfl
  have hset : c.setRem c.remBytes = c := by
    rw [Context.setRem, ← hinv.rem_padded, remBytes_length, BitVec.ofNat_toNat, BitVec.setWidth_eq]
  rw [encUpdateReply_eq E [] hp, List.append_nil, hblocks, hleft, encryptBlocks, hset]

/-- Settles O25: the bytes of REM are no whole block and stay in REM, and nothing is appended to
BUF. -/
theorem emptyUpdateChangesNothing : Obligations.EmptyUpdateChangesNothing := by
  refine fun s hinv => ⟨fun hp => ?_, fun hp => ?_⟩
  · exact exec_encUpdate_of_reply (encUpdateReply_nil s.cipher hinv hp)
  · rw [exec_decUpdate_of_fits (chunk := []) hp hinv.buf_valid hinv.buf_fits, appendBuf_nil]

/-! ## A command that changed no register can be tried again (R202) -/

/-- What a command answers depends on the registers and the port alone. -/
theorem replyOf_answered (i : Instr) (s : State) (e : Err) (out : List Byte) :
    replyOf i (s.answered s.ctx e out) = replyOf i s := by
  cases i <;> rfl

/-- Two answers that lead one state to the same state do so from every state. -/
theorem answered_eq_of_answered_eq {s : State} {c d : Context} {e e' : Err} {out out' : List Byte}
    (h : s.answered c e out = s.answered d e' out') (t : State) :
    t.answered c e out = t.answered d e' out' := by
  obtain ⟨hc, hresp⟩ : c = d ∧ s.respOut ++ [⟨statusWord e c, out⟩] =
      s.respOut ++ [⟨statusWord e' d, out'⟩] := ⟨congrArg State.ctx h, congrArg State.respOut h⟩
  rw [State.answered, State.answered, List.append_cancel_left hresp, hc]

/-- After an answer that kept the registers, a command answers as it would have before. -/
theorem exec_after_kept {i : Instr} {s : State} {c : Context} {e e' : Err} {out out' : List Byte}
    (h : exec i s = .next (s.answered c e out)) :
    exec i (s.answered s.ctx e' out') = .next ((s.answered s.ctx e' out').answered c e out) := by
  rw [exec_eq] at h
  rw [exec_eq, replyOf_answered, answered_eq_of_answered_eq (Host.Outcome.next.inj h)]

/-- Settles O28: either FINAL without room keeps the registers, so a retry answers as before. -/
theorem finalWithoutRoomCanBeRetried : Obligations.FinalWithoutRoomCanBeRetried := by
  refine fun s small large => ⟨fun hp hc => ⟨?_, fun _ _ _ => exec_after_kept⟩,
    fun hp hs hc => ⟨?_, fun _ _ _ => exec_after_kept⟩⟩
  · rw [exec_eq, replyOf, encFinalReply_of_no_room s.cipher hp hc]
    rfl
  · rw [exec_eq, replyOf, decFinalReply_of_no_room s.cipher hp hs hc]
    rfl

/-! ## A message in any chunks (R154) -/

/-- ENC_UPDATE with REM empty: the whole blocks of the chunk are emitted and folded, and the bytes
left over are the new REM (R150). -/
theorem encUpdateReply_of_no_rem (E : Block → Block) {c : Context} (hp : c.phase = .encrypting)
    (h0 : c.remLen = 0) (bs : List Byte) :
    encUpdateReply E bs c =
      reply ((foldedBlocks c (bs.length / 16)
          (streamXor E c.cb (bs.take (16 * (bs.length / 16))))).setRem (leftover bs))
        (streamXor E c.cb (bs.take (16 * (bs.length / 16)))) := by
  have hrem : c.remBytes = [] := List.eq_nil_of_length_eq_zero (by rw [remBytes_length, h0]; rfl)
  have hwalk := encryptBlocks_chunks E _ (take_wholeBlocks_length bs) c
  rw [chunks_take] at hwalk
  rw [encUpdateReply_eq E bs hp, hrem, List.nil_append, wholeBlocks, hwalk, foldedBlocks,
    streamXor_length]

/-- ENC_UPDATEs leave the registers and emit the bytes of one ENC_UPDATE of all their chunks (R54),
each with one response. -/
theorem execAll_encUpdates (chunks : List (List Byte)) (is : List Instr) {s : State}
    (hinv : s.ctx.Inv) (hp : s.ctx.phase = .encrypting) :
    ∃ rs : List Response, rs.length = chunks.length ∧
      rs.flatMap Response.out = (encUpdateReply s.cipher chunks.flatten s.ctx).out ∧
      execAll (chunks.map .encUpdate ++ is) s =
        execAll is { s with
          ctx := (encUpdateReply s.cipher chunks.flatten s.ctx).ctx
          respOut := s.respOut ++ rs } := by
  induction chunks generalizing s with
  | nil =>
    rw [List.flatten_nil, encUpdateReply_nil s.cipher hinv hp]
    exact ⟨[], rfl, rfl, by simp⟩
  | cons chunk chunks ih =>
    obtain ⟨c₁, c₂, out₁, out₂, ha, hb, hab⟩ :=
      encUpdateReply_append s.cipher chunk chunks.flatten hp
    have hinv₁ : c₁.Inv := by
      have hkept := (encUpdateReply_effect s.cipher s.ctx chunk).keeps_inv hinv
      rwa [ha] at hkept
    have hp₁ : c₁.phase = .encrypting := by
      rw [← reply_ctx c₁ out₁, ← ha, encUpdateReply_eq s.cipher chunk hp, reply_ctx, setRem_phase,
        encryptBlocks_phase, hp]
    obtain ⟨rs, hlen, hout, hrun⟩ := ih (s := s.answered c₁ .ok out₁) hinv₁ hp₁
    rw [answered_cipher, answered_ctx, hb] at hout hrun
    rw [List.flatten_cons, hab]
    refine ⟨⟨statusWord .ok c₁, out₁⟩ :: rs, congrArg (· + 1) hlen,
      congrArg (out₁ ++ ·) hout, ?_⟩
    rw [List.map_cons, List.cons_append, execAll_cons_of_next (exec_encUpdate_of_reply ha), hrun]
    simp [State.answered]

/-- A message sent: INIT_ENC and ENC_UPDATEs leave what one ENC_UPDATE of the message leaves. -/
theorem execAll_initEnc_encUpdates {tl : BitVec 5} {iv aad : List Byte} (chunks : List (List Byte))
    (is : List Instr) {s : State} (hp : s.ctx.phase = .idle) (htl : tagLegal tl = true)
    (hiv : iv ≠ []) :
    ∃ (r : Reply) (rs : List Response),
      r = encUpdateReply s.cipher chunks.flatten (initContext s.cipher .encrypting tl iv aad) ∧
      rs.length = chunks.length + 1 ∧ rs.flatMap Response.out = r.out ∧
      execAll (.initEnc tl iv aad :: (chunks.map .encUpdate ++ is)) s =
        execAll is { s with ctx := r.ctx, respOut := s.respOut ++ rs } := by
  obtain ⟨rs, hlen, hout, hrun⟩ := execAll_encUpdates chunks is
    (s := s.answered (initContext s.cipher .encrypting tl iv aad) .ok [])
    (inv_initContext s.cipher .enc htl) rfl
  rw [answered_cipher, answered_ctx] at hout hrun
  refine ⟨_, ⟨statusWord .ok (initContext s.cipher .encrypting tl iv aad), []⟩ :: rs, rfl,
    congrArg (· + 1) hlen, hout, ?_⟩
  rw [execAll_cons_of_next (exec_init_of_accepted .enc hp htl hiv), hrun]
  simp [State.answered]

/-- ENC_FINAL of a message sent as one chunk: its output completes what ENC_UPDATE emitted to the
ciphertext and the tag, and the registers are those of R113. -/
theorem encFinalReply_of_message (E : Block → Block) {tl : BitVec 5} {iv aad bs ct : List Byte}
    {outcap : Word64} {r : Reply}
    (hr : r = encUpdateReply E bs (initContext E .encrypting tl iv aad))
    (htl : tagLegal tl = true) (hroom : bs.length % 16 + tl.toNat ≤ outcap.toNat)
    (hct : ct = streamXor E (deriveJ0 (E 0) iv) bs) :
    ∃ out, encFinalReply E outcap r.ctx = reply (messageEnd E tl iv aad ct) out ∧
      r.out ++ out = ct ++ messageTag E (deriveJ0 (E 0) iv) tl.toNat aad ct := by
  have hinv : r.ctx.Inv := by
    rw [hr]
    exact (encUpdateReply_effect E _ bs).keeps_inv (inv_initContext E .enc htl)
  rw [encUpdateReply_of_no_rem E rfl rfl] at hr
  have hlen := take_wholeBlocks_length bs
  have hrem : r.ctx.remBytes = leftover bs := by
    rw [hr]
    exact remBytes_setRem _ (leftover_length_lt bs)
  have hremLen : r.ctx.remLen.toNat = bs.length % 16 := by
    rw [← remBytes_length, hrem, leftover, List.length_drop]
    omega
  have hsplit : r.out ++ streamXor E r.ctx.cb r.ctx.remBytes = ct := by
    rw [hrem, hct, hr]
    exact (streamXor_append_blocks E _ hlen _).symm.trans
      (congrArg _ (take_append_leftover bs))
  have hend : encrypted r.ctx (streamXor E r.ctx.cb r.ctx.remBytes) =
      messageEnd E tl iv aad ct := by
    rw [← hsplit, ← encrypted_initContext, hr]
    exact encrypted_foldedBlocks _ (by rw [streamXor_length, hlen]) _ _
  have hfinal := encFinalReply_eq E (outcap := outcap) hinv (by rw [hr]; rfl)
    (by rw [hremLen, hr]; exact hroom)
  rw [hend, messageEnd_tag] at hfinal
  exact ⟨_, hfinal, by rw [← List.append_assoc, hsplit]⟩

theorem outputSince_of_respOut {s t : State} {rs : List Response}
    (h : t.respOut = s.respOut ++ rs) : outputSince s t = rs.flatMap Response.out := by
  rw [outputSince, h, List.drop_left]

/-- Settles O36: the chunks run as one ENC_UPDATE, and ENC_FINAL completes its output. -/
theorem encryptedMessageIsGcm : Obligations.EncryptedMessageIsGcm := by
  intro s tl iv aad chunks outcap ct hp htl hiv hroom hct
  obtain ⟨r, rs, hr, hlen, hout, hrun⟩ :=
    execAll_initEnc_encUpdates (aad := aad) chunks [.encFinal outcap] hp htl hiv
  obtain ⟨out, hfinal, hjoin⟩ := encFinalReply_of_message s.cipher hr htl hroom hct
  rw [execAll_singleton, exec_eq] at hrun
  have hreply : replyOf (.encFinal outcap) { s with ctx := r.ctx, respOut := s.respOut ++ rs } =
      reply (messageEnd s.cipher tl iv aad ct) out := hfinal
  rw [hreply] at hrun
  refine ⟨_, hrun, ?_, rfl, ?_⟩
  · rw [outputSince_of_respOut (List.append_assoc _ _ _), List.flatMap_append, hout, ← hjoin]
    simp
  · rw [answered_respOut, List.length_append, List.length_append, hlen]
    rfl

end Sys2Proof.Machine
end

section
/-! PROOFS (43_decrypt.md). The bytewise comparison, a DEC_UPDATE that overflows and a DEC_FINAL that
is too short, what may be emitted while decrypting, and the round trip of a message. -/

namespace Sys2Proof.Machine

/-! ## The comparison byte by byte (R174) -/

theorem eq_iff_getD_eq {a b : List Byte} (hlen : a.length = b.length) :
    a = b ↔ ∀ k, k < a.length → a.getD k 0 = b.getD k 0 := by
  refine ⟨fun h _ _ => h ▸ rfl, fun h => List.ext_getElem hlen fun k ha hb => ?_⟩
  rw [← List.getD_eq_getElem a 0 ha, h k ha, List.getD_eq_getElem b 0 hb]

/-- Settles O34: the comparison is equality, and strings of one length are equal byte by byte. -/
theorem tagComparisonIsEquality : Obligations.TagComparisonIsEquality := fun _ _ hlen =>
  ⟨(constantTimeEqual_iff hlen).trans (eq_iff_getD_eq hlen), constantTimeEqual_iff hlen⟩

/-! ## The answer SEQUENCE (R210) -/

/-- No row of R22 has the code SEQUENCE. -/
theorem phaseRow_sequence (p : Phase) (i : Instr) (q : Phase) :
    phaseRow p i .sequence q = false := by
  cases i <;> cases p <;> rfl

/-- A command answers SEQUENCE just where R210 refuses it, and then its reply is the refusal. -/
theorem Effect.sequence_iff {E : Block → Block} {c : Context} {i : Instr} {r : Reply}
    (he : Effect E c i r) :
    (phaseLegal i c.phase = false ↔ r = replyErr .sequence c) ∧
      (r.err = .sequence ↔ r = replyErr .sequence c) := by
  obtain hrow | ⟨hl, rfl⟩ := he.phase
  · have herr : r.err ≠ .sequence := fun h => by simp [h, phaseRow_sequence] at hrow
    have hl : phaseLegal i c.phase ≠ false := fun h => by simp [phaseRow_of_not_legal h] at hrow
    have hr : r ≠ replyErr .sequence c := fun h => herr (h ▸ rfl)
    exact ⟨iff_of_false hl hr, iff_of_false herr hr⟩
  · exact ⟨iff_of_true hl rfl, iff_of_true rfl rfl⟩

/-- The answer sent shows its error code (R34). -/
theorem errCode_eq_of_answered_eq {s : State} {c d : Context} {e e' : Err} {out out' : List Byte}
    (h : s.answered c e out = s.answered d e' out') : e.code = e'.code := by
  have hresp : s.respOut ++ [⟨statusWord e c, out⟩] = s.respOut ++ [⟨statusWord e' d, out'⟩] :=
    congrArg State.respOut h
  obtain ⟨hword, -⟩ := Response.mk.inj (List.cons.inj (List.append_cancel_left hresp)).1
  obtain ⟨hcode, -⟩ := statusWord_fields e c
  obtain ⟨hcode', -⟩ := statusWord_fields e' d
  rw [← hcode, ← hcode', hword]

/-- SEQUENCE is the only error with its code (R200). -/
theorem errCode_eq_sequence {e : Err} (h : e.code = Err.sequence.code) : e = .sequence := by
  cases e with
  | sequence => rfl
  | _ => cases h

theorem exec_eq_sequence_iff (i : Instr) (s : State) :
    exec i s = .next (s.answered s.ctx .sequence []) ↔ phaseLegal i s.ctx.phase = false := by
  obtain ⟨hlegal, herr⟩ := (replyOf_effect i s).sequence_iff
  rw [exec_eq, hlegal]
  constructor
  · intro h
    exact herr.mp (errCode_eq_sequence (errCode_eq_of_answered_eq (Host.Outcome.next.inj h)))
  · intro h
    rw [h]
    rfl

/-- In FAILED only NOP and ZEROIZE are legal (R210). -/
theorem phaseLegal_failed_iff (i : Instr) :
    phaseLegal i .failed = false ↔ i ≠ .nop ∧ i ≠ .zeroize := by
  cases i <;> simp [phaseLegal]

/-! ## A DEC_UPDATE that overflows BUF (R171) -/

theorem decUpdateReply_of_overflow {cap : Nat} {chunk : List Byte} {c : Context}
    (hp : c.phase = .decrypting) (hover : cap < c.bufLen.toNat + chunk.length) :
    decUpdateReply cap chunk c = failOom := by
  rw [decUpdateReply, if_neg (by simp [hp]), if_pos hover]

/-- Settles O30: the reply is that of R171, and R210 says what FAILED accepts. -/
theorem decUpdateOverflowFails : Obligations.DecUpdateOverflowFails := by
  intro s chunk hp hover
  refine ⟨_, ?_, rfl, fun i => (exec_eq_sequence_iff i _).trans (phaseLegal_failed_iff i)⟩
  rw [exec_eq, replyOf, decUpdateReply_of_overflow hp hover]
  rfl

/-! ## A DEC_FINAL with less than a tag in BUF (R176) -/

/-- Settles O33: the length is checked before OUTCAP, and nothing is folded. -/
theorem shortDecryptInputFailsAuthentication :
    Obligations.ShortDecryptInputFailsAuthentication := by
  intro s outcap hp hs
  rw [exec_eq, replyOf, decFinalReply_of_short s.cipher hp hs]
  rfl

/-! ## What is emitted while decrypting (R175) -/

/-- Of the commands legal in DECRYPTING only DEC_FINAL emits (R175). -/
theorem Effect.decFinal_of_out_ne_nil {E : Block → Block} {c : Context} {i : Instr} {r : Reply}
    (he : Effect E c i r) (hp : c.phase = .decrypting) (ho : r.out ≠ []) :
    ∃ n, i = .decFinal n := by
  cases he with
  | encUpdate _ _ _ hpe | encFinal _ _ _ hpe =>
    rw [hp] at hpe
    cases hpe
  | decFinal => exact ⟨_, rfl⟩
  | _ => exact absurd rfl ho

/-- DEC_FINAL emits only where BUF holds a whole tag and there is room for the plaintext (R172). -/
theorem lengths_of_decFinalReply_out_ne_nil {E : Block → Block} {outcap : Word64} {c : Context}
    (h : (decFinalReply E outcap c).out ≠ []) :
    c.phase = .decrypting ∧ c.tlen.toNat ≤ c.bufLen.toNat ∧
      c.bufLen.toNat - c.tlen.toNat ≤ outcap.toNat := by
  obtain ⟨-, hr⟩ | ⟨-, -, hr⟩ | ⟨-, -, -, hr⟩ | ⟨hp, hs, n, -, rfl, hroom, -⟩ :=
    decFinalReply_cases E outcap c
  · exact absurd (by rw [hr]; rfl) h
  · exact absurd (by rw [hr]; rfl) h
  · exact absurd (by rw [hr]; rfl) h
  · exact ⟨hp, hs, hroom⟩

/-- The tag computed by DEC_FINAL, where nothing was folded before it (R110, R112). -/
theorem decrypted_tag (E : Block → Block) {c : Context} (ct : List Byte) (h0 : c.procLen = 0) :
    (decrypted c ct).tag E = (blockBytes (E c.j0 ^^^ fold c.h (ghash c.h c.y ct)
      (blockOf (be64 (8 * c.aadLen.toNat) ++ be64 (8 * ct.length))))).take c.tlen.toNat := by
  have hcount : ct.length = c.procLen.toNat + ct.length := by simp [h0]
  rw [hcount, ← lengthBlock_add]
  rfl

/-- What DEC_FINAL emits is the plaintext of a ciphertext in BUF that its tag follows (R175). -/
theorem decFinalReply_of_out_ne_nil {E : Block → Block} {outcap : Word64} {c : Context}
    (hinv : c.Inv) (h : (decFinalReply E outcap c).out ≠ []) :
    ∃ ct tag, c.buf = ct ++ tag ∧ tag.length = c.tlen.toNat ∧ tag = (decrypted c ct).tag E ∧
      decFinalReply E outcap c = reply (decrypted c ct) (streamXor E c.cb ct) := by
  obtain ⟨hp, hs, hroom⟩ := lengths_of_decFinalReply_out_ne_nil h
  obtain ⟨ct, tag, hbuf, hct⟩ :
      ∃ ct tag, c.buf = ct ++ tag ∧ ct.length = c.bufLen.toNat - c.tlen.toNat :=
    ⟨_, _, (List.take_append_drop (c.bufLen.toNat - c.tlen.toNat) c.buf).symm, by
      rw [List.length_take, hinv.buf_valid, min_eq_left (Nat.sub_le _ _)]⟩
  have htag : tag.length = c.tlen.toNat := by
    have hlen : ct.length + tag.length = c.bufLen.toNat := by
      rw [← hinv.buf_valid, hbuf, List.length_append]
    omega
  have hr := decFinalReply_eq E hinv hp hbuf htag (hct ▸ hroom)
  by_cases htrue : tag = (decrypted c ct).tag E
  · exact ⟨ct, tag, hbuf, htag, htrue, hr.trans (if_pos htrue)⟩
  · rw [hr, if_neg htrue] at h
    exact absurd rfl h

/-- Settles O35: a byte comes only from DEC_FINAL, and from it only after the tag verified. -/
theorem plaintextOnlyAfterVerification : Obligations.PlaintextOnlyAfterVerification := by
  intro i s hinv hp
  refine ⟨_, _, _, exec_eq i s, fun hout => ?_⟩
  obtain ⟨n, rfl⟩ := (replyOf_effect i s).decFinal_of_out_ne_nil hp hout
  obtain ⟨ct, tag, hbuf, htag, htrue, hr⟩ := decFinalReply_of_out_ne_nil hinv hout
  obtain ⟨hproc, -⟩ := hinv.nothing_folded hp
  rw [replyOf, hr]
  exact ⟨rfl, ⟨n, rfl⟩, ct, tag, hbuf, htag, streamXor_length _ _ _,
    htrue.trans (decrypted_tag s.cipher ct hproc)⟩

/-! ## The round trip (R177) -/

/-- The keystream applied twice gives the string back (R154). -/
theorem streamXor_streamXor (E : Block → Block) (cb : Block) (bs : List Byte) :
    streamXor E cb (streamXor E cb bs) = bs := by
  refine List.ext_getElem (by simp) fun k _ _ => ?_
  simp only [streamXor, List.getElem_mapIdx, BitVec.xor_assoc, BitVec.xor_self, BitVec.xor_zero]

theorem messageTag_length (E : Block → Block) (j0 : Block) {tl : BitVec 5} (htl : tagLegal tl = true)
    (aad ct : List Byte) : (messageTag E j0 tl.toNat aad ct).length = tl.toNat := by
  rw [messageTag, List.length_take, blockBytes_length, min_eq_left (tlen_le_of_tagLegal htl)]

/-- Settles O38: what is emitted is a ciphertext and its tag, and that tag verifies. -/
theorem decryptUndoesEncrypt : Obligations.DecryptUndoesEncrypt := by
  intro s u tl iv aad chunks chunks' outcap outcap' hps hpu hkey htl hiv hroom hcap hroom'
  obtain ⟨t, hrun, hout, hend, -⟩ :=
    encryptedMessageIsGcm s tl iv aad chunks outcap _ hps htl hiv hroom rfl
  refine ⟨t, hrun, fun hflat => ?_⟩
  have hcipher : u.cipher = s.cipher := congrArg Config.blockCipher hkey
  have htag := messageTag_length s.cipher (deriveJ0 (s.cipher 0) iv) htl aad
    (streamXor s.cipher (deriveJ0 (s.cipher 0) iv) chunks.flatten)
  obtain ⟨v, hrunv, houtv, hendv, -, hlast⟩ :=
    decryptedMessageIsGcm u tl iv aad chunks' outcap' _ _ hpu htl hiv (hflat.trans hout) htag
      (by rw [streamXor_length, htag]; exact hcap) (by rw [streamXor_length]; exact hroom')
  rw [hcipher, if_pos rfl, streamXor_streamXor] at houtv
  rw [hcipher, if_pos rfl, houtv] at hlast
  exact ⟨v, hrunv, houtv, by rw [hendv, hend, hcipher], hlast⟩

end Sys2Proof.Machine
end

section
/-! PROOFS (60_exceptions.md). What a command answers in a wrong phase, and that no command stops the
core. -/

namespace Sys2Proof.Machine

/-! ## A command in a wrong phase (R210) -/

/-- Settles O15: a reply is the refusal SEQUENCE just where R210 refuses the command. -/
theorem wrongPhaseAnswersSequence : Obligations.WrongPhaseAnswersSequence := by
  intro i s
  refine ⟨(exec_eq_sequence_iff i s).mpr, fun hlegal => ⟨_, _, _, exec_eq i s, fun herr => ?_⟩⟩
  obtain ⟨hrefused, hseq⟩ := (replyOf_effect i s).sequence_iff
  have hillegal : phaseLegal i s.ctx.phase = false := hrefused.mpr (hseq.mp herr)
  exact Bool.false_ne_true (hillegal.symm.trans hlegal)

/-! ## No command stops the core (R204) -/

/-- Every list of commands answers a next state: each command is served from the state that the one
before it leaves (R57, R204). -/
theorem execAll_eq_foldl (is : List Instr) (s : State) :
    execAll is s = .next (is.foldl (fun t i => after i t) s) := by
  induction is generalizing s with
  | nil => rfl
  | cons i is ih => rw [execAll_cons, ih, List.foldl_cons]

/-- The only move the core refuses is a change of key while a message is in progress (R244). -/
theorem takeMove_refused {s : State} {r : Refusal} (h : takeMove s = .refused r) :
    r = .keyChangedInMessage ∧ s.ctx.inMessage = true ∧
      ∃ k rest, s.hostIn = .key k :: rest ∧ k ≠ s.portKey := by
  rw [takeMove] at h
  split at h
  case h_5 k rest hhost =>
    split at h
    case isTrue hkey =>
      obtain ⟨hmsg, hk⟩ := Bool.and_eq_true_iff.mp hkey
      exact ⟨(Host.Outcome.refused.inj h).symm, hmsg, k, rest, hhost, bne_iff_ne.mp hk⟩
    case isFalse => cases h
  all_goals cases h

/-- A step that is refused is a host move that is refused: a reset and a whole frame, legal or not,
answer a next state (R204). -/
theorem takeMove_refused_of_step {s : State} {r : Refusal} (h : step s = .refused r) :
    takeMove s = .refused r := by
  rw [step] at h
  split at h
  case isTrue => cases h
  case isFalse =>
    split at h
    · rw [exec_eq] at h
      cases h
    · cases h
    · exact h

/-- Settles O19: a run is a fold of the commands, whose last ZEROIZE leaves the reset values, and
what a step refuses is a host move. -/
theorem commandsNeverStopTheCore : Obligations.CommandsNeverStopTheCore := by
  refine ⟨fun is s => ⟨_, execAll_eq_foldl is s⟩,
    fun s r h => takeMove_refused (takeMove_refused_of_step h),
    fun is s => ⟨_, execAll_eq_foldl (is ++ [.zeroize]) s, ?_⟩⟩
  rw [List.foldl_append]
  rfl

end Sys2Proof.Machine
end

section
/-! PROOFS (70_reset_and_hazards.md). A frame cut short by a reset is abandoned, and the bytes that
come before the host is at a frame boundary again are dropped (R232). -/

namespace Sys2Proof.Machine

/-! ## Bytes dropped after a reset inside a frame -/

/-- Out of step with the host's frame boundaries, the core drops the bytes it is sent. -/
theorem step_of_resync_bytes {s : State} {bs : List Byte} {rest : List HostMove}
    (hsync : s.resync = true) (hx : s.rx = []) (hm : s.hostIn = .bytes bs :: rest) :
    step s = .next { s with hostIn := rest } := by
  rw [step_of_rx_nil (by rw [State.resetPending, hm]) hx, takeMove, hm]
  simp [hsync]

/-- With nothing received, `boundary` puts the core in step with the host again. -/
theorem step_of_boundary {s : State} {rest : List HostMove} (hx : s.rx = [])
    (hm : s.hostIn = .boundary :: rest) :
    step s = .next { s with resync := false, hostIn := rest } := by
  rw [step_of_rx_nil (by rw [State.resetPending, hm]) hx, takeMove, hm]

/-- Any number of `bytes` moves is dropped, and the run goes on with the moves after them. -/
theorem steps_of_resync_bytes {s : State} {late : List (List Byte)} {rest : List HostMove}
    (hsync : s.resync = true) (hx : s.rx = []) (hm : s.hostIn = late.map .bytes ++ rest) (n : Nat) :
    steps (late.length + n) s = steps n { s with hostIn := rest } := by
  induction late generalizing s with
  | nil =>
    obtain rfl : rest = s.hostIn := hm.symm
    rw [List.length_nil, Nat.zero_add]
  | cons bs late ih =>
    have hstep : step s = .next { s with hostIn := late.map .bytes ++ rest } :=
      step_of_resync_bytes hsync hx hm
    rw [List.length_cons, Nat.add_right_comm, steps_succ_of_next hstep]
    exact ih hsync hx rfl

/-- The state after a reset that cuts a frame short (R232). -/
theorem hardwareReset_inside {s : State} {fs : List RawFrame} (hfs : ∀ f ∈ fs, f.Whole)
    {f : RawFrame} (hf : f.Whole) {p q : List Byte} (hpq : f.bytes = p ++ q) (hp : p ≠ [])
    (hq : q ≠ []) (hx : s.rx = fs.flatMap RawFrame.bytes ++ p) {rest : List HostMove}
    (hm : s.hostIn = .reset :: rest) :
    hardwareReset s =
      { s with ctx := Context.reset, rx := [], resync := true, hostIn := rest } := by
  rw [hardwareReset, ← hardwareReset_resync, hardwareReset_resync_inside hfs hf hpq hp hq hx, hm,
    List.tail_cons]

/-- Settles O9: the reset sets `resync`, and while it is set the moves of bytes are dropped, by
induction on them. -/
theorem abandonedFrameIsNotParsed : Obligations.AbandonedFrameIsNotParsed := by
  refine ⟨fun s fs f p q late rest hfs hf hpq hp hq hx hm => ?_,
    fun s bs rest => step_of_resync_bytes⟩
  have hrun (n : Nat) : steps (late.length + n + 1) s =
      steps n { s with ctx := Context.reset, rx := [], resync := true, hostIn := rest } := by
    rw [steps_succ_of_next (step_of_reset hm), hardwareReset_inside hfs hf hpq hp hq hx hm]
    exact steps_of_resync_bytes rfl rfl rfl n
  refine ⟨hrun 0, fun tail hrest => ?_⟩
  rw [hrun 1, steps_succ_of_next (step_of_boundary rfl hrest), steps]

end Sys2Proof.Machine
end
